-- ==== Sys2Proof/Word.lean ====
section
/-! DEFINITION. The word and byte types (00_scope.md R6: XLEN = AW = 32; 20_memory.md R60: bytes of 8 bits). -/

namespace Sys2Proof

/-- A register value or a command word, XLEN = 32 bits (R6, R20). -/
abbrev Word := BitVec 32

/-- One byte of the buffer (20_memory.md R60). -/
abbrev Byte := BitVec 8

end Sys2Proof
end

