-- ==== Sys2Proof/Syntax.lean ====
section
/-! DEFINITION. The commands, the register names, the host's transactions and the host script. -/

namespace Sys2Proof

/-- The seven commands, one constructor per row of spec/opcode_table.json (30_encoding.md R91). A command has no
operand fields and no immediates (R90). -/
inductive Instr where
  /-- Checksum of the window (41_crc.md R156). -/
  | crc32
  /-- Checksum of the window compared with the 4 bytes that follow it (41_crc.md R157). -/
  | crcv
  /-- One unsigned stop-bit integer of at most 32 bits (42_varint.md R171). -/
  | vu32
  /-- A 64-bit unsigned sent as two stop-bit integers, high half first (42_varint.md R172). -/
  | vu64
  /-- A length-prefixed string (43_string.md R192). -/
  | str
  /-- A decimal: signed stop-bit mantissa, then exponent byte (44_decimal.md R207). -/
  | dec
  /-- The 28-byte frame header, parsed and checked (45_header.md R225). -/
  | hdr
  deriving DecidableEq, Repr

/-- The 23 register names (10_state.md R21). -/
inductive Reg where
  | cmd | status | off | lim | buflen | crc | valLo | valHi | strOff | strLen | mant | exp
  | hTag | hType | hLen | hTsLo | hTsHi | hSeq | hVer | hFlags | hRsvd | payOff | payLim
  deriving DecidableEq, Repr

/-- The three things a host can do to an instance (40_dispatch.md R130). The index of a register access is any
natural number: indices 23 and above are unmapped (10_state.md R39). -/
inductive HostTxn where
  /-- HostRead(idx). -/
  | read (idx : Nat)
  /-- HostWrite(idx, v). -/
  | write (idx : Nat) (v : Word)
  /-- Reset. -/
  | reset
  deriving DecidableEq, Repr

/-- What can reach an instance from outside: its host's transactions, and what the environment does to the buffer
(20_memory.md R70, R72, R75; 70_reset_and_hazards.md R312). -/
inductive Event where
  /-- A transaction of the host. -/
  | host (t : HostTxn)
  /-- Between two commands the environment attaches this buffer, complete (R72, R75, R312). -/
  | attach (bytes : List Byte)
  /-- The host issues command word `w` and the buffer is changed before the command has ended: what R70 puts outside
  the model and tells the model to refuse (log entry 8). -/
  | disturbed (w : Word)
  deriving DecidableEq, Repr

/-- A transfer on the host bus, by byte address relative to the instance's base: `W aa dddddddd`, `R aa`
(30_encoding.md R93). `bytes` is the width of the access. -/
inductive BusAccess where
  /-- A bus read. -/
  | read (addr bytes : Nat)
  /-- A bus write. -/
  | write (addr bytes : Nat) (data : Word)
  deriving DecidableEq, Repr

/-- The two registers a script line may set (30_encoding.md R118). -/
inductive SetReg where
  | off | lim
  deriving DecidableEq, Repr

/-- A value of a script line: a constant, the value last read from a register (`$r`), or a sum (R118). -/
inductive ScriptExpr where
  | const (v : Word)
  | got (r : Reg)
  | add (a b : ScriptExpr)
  deriving DecidableEq, Repr

/-- One line of the host script (R118). -/
inductive ScriptLine where
  /-- `SET OFF, v` or `SET LIM, v`. -/
  | set (d : SetReg) (v : ScriptExpr)
  /-- A command, by its mnemonic. -/
  | issue (i : Instr)
  /-- `GET r`. -/
  | get (r : Reg)
  /-- `RESET`. -/
  | reset
  deriving DecidableEq, Repr

/-- The pseudo-instructions of the host script (R119). -/
inductive Pseudo where
  | window (a b : ScriptExpr)
  | mov (rd : SetReg) (rs : Reg)
  | enter
  | skip (n : ScriptExpr)
  | check
  | next (f : ScriptExpr)
  deriving DecidableEq, Repr

end Sys2Proof
end

