-- ==== Sys2Proof/WellFormed.lean ====
section
/-! DEFINITION. Which words, transfers and buffers are well formed. A command has no operand field (30_encoding.md R90), so
every `Instr` is well formed; the checks are on the command word, on the host-bus transfer and on the buffer's length. -/

namespace Sys2Proof

/-- Every command is well formed: none has an operand (30_encoding.md R90). -/
def Instr.wellFormed : Instr → Bool
  | .crc32 => true
  | .crcv => true
  | .vu32 => true
  | .vu64 => true
  | .str => true
  | .dec => true
  | .hdr => true

/-- Field OPCODE, bits 7:0 of a command word (30_encoding.md R90). -/
def opcodeField (w : Word) : Byte := w.extractLsb' 0 8

/-- Field ZERO, bits 31:8 of a command word (30_encoding.md R90). -/
def zeroField (w : Word) : BitVec 24 := w.extractLsb' 8 24

/-- A command word is well formed when ZERO is 0 and OPCODE is 0x01 to 0x07 (10_state.md R22; 30_encoding.md R92). -/
def commandWordWellFormed (w : Word) : Bool :=
  zeroField w == 0#24 && decide (1 ≤ (opcodeField w).toNat) && decide ((opcodeField w).toNat ≤ 7)

/-- A host-bus transfer is 32 bits wide and aligned (30_encoding.md R93). -/
def BusAccess.wellFormed : BusAccess → Bool
  | .read addr bytes => bytes == 4 && addr % 4 == 0
  | .write addr bytes _ => bytes == 4 && addr % 4 == 0

/-- An event is well formed when a buffer it attaches has a length that BUF_LEN can state (20_memory.md R60). -/
def Event.wellFormed : Event → Bool
  | .host _ => true
  | .attach bytes => decide (bytes.length < 2 ^ 32)
  | .disturbed _ => false

end Sys2Proof
end

