-- ==== Sys2Proof/Decode.lean ====
section
/-! DEFINITION. From a command word to a command and back (30_encoding.md R90 to R92), and from a host-bus transfer to a
host transaction and back (30_encoding.md R93). -/

namespace Sys2Proof

/-- Why a command word selects no command (30_encoding.md R92). Each gives the outcome ILLEGAL_CMD (40_dispatch.md R135). -/
inductive DecodeError where
  /-- A nonzero bit in 31:8, even if the low byte is a legal opcode. -/
  | zeroFieldSet
  /-- OPCODE 0x00. -/
  | opcodeZero
  /-- OPCODE 0x08 to 0xFF. -/
  | opcodeReserved
  deriving DecidableEq, Repr

/-- The opcode assignment (30_encoding.md R91; 40_dispatch.md R137). -/
def decodeOpcode (op : Byte) : Except DecodeError Instr :=
  match op.toNat with
  | 0x00 => .error .opcodeZero
  | 0x01 => .ok .crc32
  | 0x02 => .ok .crcv
  | 0x03 => .ok .vu32
  | 0x04 => .ok .vu64
  | 0x05 => .ok .str
  | 0x06 => .ok .dec
  | 0x07 => .ok .hdr
  | _ => .error .opcodeReserved

/-- Decode a command word: total, every word outside the seven of 30_encoding.md R91 rejected by name (R92). -/
def decode (w : Word) : Except DecodeError Instr :=
  if zeroField w = 0#24 then decodeOpcode (opcodeField w) else .error .zeroFieldSet

/-- The command word of a command: the column "word" of 30_encoding.md R91. -/
def encode : Instr → Word
  | .crc32 => 0x00000001#32
  | .crcv => 0x00000002#32
  | .vu32 => 0x00000003#32
  | .vu64 => 0x00000004#32
  | .str => 0x00000005#32
  | .dec => 0x00000006#32
  | .hdr => 0x00000007#32

/-- The command the decoder reads from the `nbits` bits `w` of the opcode table, whose bit 0 is the word's bit 0. A command
word is one 32-bit value on the host bus, so no byte order enters (log entry 12). -/
def decodeTableWord (nbits w : Nat) : Option Instr :=
  match decode (BitVec.ofNat 32 (w % 2 ^ nbits)) with
  | .ok i => some i
  | .error _ => none

/-- Why a host-bus transfer is none of the host's transactions (30_encoding.md R93). -/
inductive BusError where
  /-- The access is not 32 bits wide. -/
  | notAWord
  /-- The byte address is not a multiple of 4. -/
  | misaligned
  deriving DecidableEq, Repr

/-- Decode a host-bus transfer: register index idx is at byte address 4 * idx (30_encoding.md R93). -/
def decodeBus : BusAccess → Except BusError HostTxn
  | .read addr bytes =>
    if bytes ≠ 4 then .error .notAWord
    else if addr % 4 ≠ 0 then .error .misaligned
    else .ok (.read (addr / 4))
  | .write addr bytes v =>
    if bytes ≠ 4 then .error .notAWord
    else if addr % 4 ≠ 0 then .error .misaligned
    else .ok (.write (addr / 4) v)

/-- The host-bus transfer of a register access; Reset is no transfer on the bus (30_encoding.md R93, R118). -/
def encodeBus : HostTxn → Option BusAccess
  | .read idx => some (.read (4 * idx) 4)
  | .write idx v => some (.write (4 * idx) 4 v)
  | .reset => none

end Sys2Proof
end

