-- ==== Sys2Proof/Config.lean ====
section
/-! DEFINITION. What an implementation fixes: the parameter table of 00_scope.md R6. -/

namespace Sys2Proof.Config

/-- MAGIC, the value of the start marker: OPEN (R6; 91 N3), so it has no body and no proof can see a value
(log entry 4). The machine reads `State.magic`, of which this is the value at reset. -/
opaque magic : Word

/-- HEADER_SIZE, bytes of the fixed frame header (R6). -/
def headerSize : Nat := 28

/-- TRAILER_SIZE, bytes of the frame trailer (R6). -/
def trailerSize : Nat := 4

/-- MIN_FRAME, the least legal msg_length (R6; 30_encoding.md R103). -/
def minFrame : Nat := headerSize + trailerSize

/-- CRC_POLY (R6; 41_crc.md R150). -/
def crcPoly : Word := 0xEDB88320#32

/-- CRC_INIT, "seeded with all-ones" (R6; 41_crc.md R150). -/
def crcInit : Word := 0xFFFFFFFF#32

/-- CRC_XOROUT, the final XOR (R6; 41_crc.md R150). -/
def crcXorOut : Word := 0xFFFFFFFF#32

/-- VARINT_MAX_GROUPS, the most bytes one 32-bit stop-bit integer may take (R6). -/
def varintMaxGroups : Nat := 5

/-- The two readings of a two-byte string length prefix (R6 STRLEN_LAYOUT; 90_conflicts.md C1). -/
inductive StrLenLayout where
  /-- 7 high bits from the first byte, 8 low bits from the second. -/
  | l15
  /-- 7 bits from each byte, the reading the spec set aside (43_string.md R193). -/
  | l14
  deriving DecidableEq, Repr

/-- STRLEN_LAYOUT: this hardware takes L15 (R6; 90_conflicts.md C1). -/
def strLenLayout : StrLenLayout := .l15

/-- What an offset that the sparse buffer does not list reads as (log entry 3: DESIGN CHOICE). -/
def unlistedByte : Byte := 0#8

end Sys2Proof.Config
end

