-- ==== Sys2Proof/Machine/State.lean ====
section
/-! DEFINITION. The state of the machine as plain data, the reasons a step can stop, and the state after reset. -/

namespace Sys2Proof.Machine

/-- The error outcomes (60_exceptions.md R281), by name. OK, code 0, is not among them. -/
inductive Err where
  | notAFrame
  | truncated
  | corrupt
  /-- Never raised by the SFPU (R281, R282): the number is kept for hosts. -/
  | unsupportedTemplate
  | fieldOverrun
  | varRange
  | badLength
  | badWindow
  | illegalCmd
  deriving DecidableEq, Repr

/-- Why the machine stops with a fault. -/
inductive Fault where
  /-- A read of a buffer offset that does not exist, `a ≥ BUF_LEN` (20_memory.md R60). Raised by the one operation
  that reads the buffer. Safe: no command makes such a read (20_memory.md R69). -/
  | outsideBuffer (a : Nat)
  deriving DecidableEq, Repr

/-- Why the model gives a step no meaning. -/
inductive Refusal where
  /-- An instruction of the table that has no meaning yet. Raised by exec's refused arms only. Safe. -/
  | notModelled (mnemonic : String)
  /-- The environment attaches a buffer of more than 2^32 - 1 bytes (20_memory.md R60; 92 D3: "larger buffers are
  refused, not mis-handled"). Raised by an attach event. Safe. -/
  | bufferTooLong
  /-- The buffer is changed while a command executes (20_memory.md R70: "the model must refuse it"). Raised by a
  disturbed event. Safe. -/
  | bufferChangedDuringCommand
  /-- A script line names `$r` for a register no earlier line has read (30_encoding.md R118). Raised by the script layer,
  never by step. Safe. -/
  | scriptValueNotRead (r : Reg)
  /-- A schedule names an instance that does not exist. Raised by the system of N instances, never by step. Safe. -/
  | noSuchInstance (k : Nat)
  deriving DecidableEq, Repr

/-- The bytes of the buffer that are not `Config.unlistedByte`, offsets strictly rising (log entry 3). -/
abbrev Memory := List Host.Cell

/-- The attached buffer: BUF and BUF_LEN (20_memory.md R60). -/
structure Buffer where
  /-- BUF_LEN, 0 to 2^32 - 1; the register BUFLEN reads it (10_state.md R26). -/
  len : Word
  /-- BUF, sparse. -/
  cells : Memory
  deriving DecidableEq, Repr

/-- The registers that hold a value, 32 bits each (10_state.md R20, R21). CMD holds none (R22) and BUFLEN is
the buffer's length (R26). -/
structure Regs where
  status : Word
  off : Word
  lim : Word
  crc : Word
  valLo : Word
  valHi : Word
  strOff : Word
  strLen : Word
  mant : Word
  exp : Word
  hTag : Word
  hType : Word
  hLen : Word
  hTsLo : Word
  hTsHi : Word
  hSeq : Word
  hVer : Word
  hFlags : Word
  hRsvd : Word
  payOff : Word
  payLim : Word
  deriving DecidableEq, Repr

/-- Every register at its reset value, 0 (10_state.md R38; 70_reset_and_hazards.md R311). -/
def Regs.reset : Regs where
  status := 0
  off := 0
  lim := 0
  crc := 0
  valLo := 0
  valHi := 0
  strOff := 0
  strLen := 0
  mant := 0
  exp := 0
  hTag := 0
  hType := 0
  hLen := 0
  hTsLo := 0
  hTsHi := 0
  hSeq := 0
  hVer := 0
  hFlags := 0
  hRsvd := 0
  payOff := 0
  payLim := 0

/-- One SFPU instance with its buffer and its host bus. -/
structure State where
  /-- The registers (10_state.md R20). -/
  regs : Regs
  /-- BUF and BUF_LEN (00_scope.md R6, R16; log entry 1). -/
  buf : Buffer
  /-- MAGIC, a constant of the instance (00_scope.md R6; 70_reset_and_hazards.md R312; log entries 1 and 4). -/
  magic : Word
  /-- What the host and the environment have still to do, oldest first (40_dispatch.md R130; log entry 5). -/
  pending : List Event
  /-- The values HostRead has returned, newest first (40_dispatch.md R131; log entry 5). -/
  answers : List Word
  deriving DecidableEq, Repr

/-- The machine right after reset (10_state.md R38): every register 0, nothing pending, and, by the model's choice, no
buffer attached yet (log entry 2). -/
def State.reset : State where
  regs := Regs.reset
  buf := ⟨0, []⟩
  magic := Config.magic
  pending := []
  answers := []

end Sys2Proof.Machine
end

