-- ==== Sys2Proof/Machine/Flags.lean ====
section
/-! DEFINITION. The one condition a host can test: STATUS and its codes. The SFPU has no condition flags, carry, overflow or
predicate bits (10_state.md R35). -/

namespace Sys2Proof.Machine

/-- The outcome codes of the error outcomes (60_exceptions.md R281). -/
def Err.code : Err → Byte
  | .notAFrame => 0x01#8
  | .truncated => 0x02#8
  | .corrupt => 0x03#8
  | .unsupportedTemplate => 0x04#8
  | .fieldOverrun => 0x05#8
  | .varRange => 0x10#8
  | .badLength => 0x11#8
  | .badWindow => 0x12#8
  | .illegalCmd => 0x13#8

/-- The outcome code OK (60_exceptions.md R281). -/
def okCode : Byte := 0x00#8

/-- Field CODE of STATUS, bits 7:0 (10_state.md R23). -/
def statusCode (status : Word) : Byte := status.extractLsb' 0 8

/-- STATUS as it is written and read: CODE in bits 7:0, bits 31:8 zero (10_state.md R23; 00_scope.md R11). -/
def statusWord (code : Byte) : Word := code.setWidth 32

end Sys2Proof.Machine
end

