-- ==== Sys2Proof/Machine/Ops.lean ====
section
/-! DEFINITION. The named operations over the buffer and the registers, the end of a command (OK or error outcome), and
the common prologue and epilogue of every command. -/

namespace Sys2Proof.Machine

/-! ### The buffer -/

/-- The byte a sparse memory holds at an offset. There is no operation that writes a byte: no command writes the buffer
(20_memory.md R61), and the environment attaches a buffer whole. -/
def Memory.read : Memory → Nat → Byte
  | [], _ => Config.unlistedByte
  | (k, b) :: m, a => if a = k then b else Memory.read m a

/-- The canonical memory that holds these bytes from offset `a` up. -/
def Memory.ofBytes : Nat → List Byte → Memory
  | _, [] => []
  | a, b :: bs => if b = Config.unlistedByte then Memory.ofBytes (a + 1) bs else (a, b) :: Memory.ofBytes (a + 1) bs

/-- Canonical form from offset `lo` up: offsets strictly rising, no entry equal to what an unlisted offset reads as. -/
def Memory.wfFrom : Nat → Memory → Bool
  | _, [] => true
  | lo, (k, b) :: m => decide (lo ≤ k) && decide (b ≠ Config.unlistedByte) && Memory.wfFrom (k + 1) m

/-- The canonical form of a memory: equal memories are equal lists. -/
def Memory.wf (m : Memory) : Bool := Memory.wfFrom 0 m

/-- A buffer is well formed when its memory is canonical and lists only offsets below BUF_LEN (20_memory.md R60). -/
def Buffer.wf (buf : Buffer) : Bool := Memory.wf buf.cells && buf.cells.all (fun c => decide (c.1 < buf.len.toNat))

/-- The buffer that is complete with these bytes (70_reset_and_hazards.md R312). -/
def Buffer.ofBytes (bytes : List Byte) : Buffer := ⟨BitVec.ofNat 32 bytes.length, Memory.ofBytes 0 bytes⟩

/-- BUF[a], for an offset below BUF_LEN (00_scope.md R10). -/
def Buffer.byteAt (buf : Buffer) (a : Nat) : Byte := Memory.read buf.cells a

/-- How a part of a command ends: with a value, with an error outcome (00_scope.md R11 `raise`; R12 `Err`), or with a fault
of the model. -/
inductive Res (α : Type) where
  | ok (a : α)
  | raise (e : Err)
  | fault (f : Fault)
  deriving DecidableEq, Repr

/-- Go on with the value; an error outcome ends the command at once (00_scope.md R11). -/
def Res.bind {α β : Type} (r : Res α) (k : α → Res β) : Res β :=
  match r with
  | .ok a => k a
  | .raise e => .raise e
  | .fault f => .fault f

/-- Read one byte of the buffer. An offset at or beyond BUF_LEN does not exist (20_memory.md R60). -/
def readByte (buf : Buffer) (a : Nat) : Res Byte :=
  if a < buf.len.toNat then .ok (buf.byteAt a) else .fault (.outsideBuffer a)

/-- MemRead(a, n): the little-endian value of the n bytes at a (00_scope.md R10; 20_memory.md R63). -/
def memRead (buf : Buffer) (a : Nat) : Nat → Res Nat
  | 0 => .ok 0
  | n + 1 => (readByte buf a).bind fun b => (memRead buf (a + 1) n).bind fun rest => .ok (b.toNat + 256 * rest)

/-! ### The end of a command -/

/-- "Trap entry": an error outcome writes its code to STATUS and nothing else (00_scope.md R11; 40_dispatch.md R139;
60_exceptions.md R285). There is nothing to return from (R286): the next command runs normally. -/
def raiseOutcome (e : Err) (s : State) : State :=
  { s with regs := { s.regs with status := statusWord e.code } }

/-- Successful end: the command's register writes and STATUS <- OK, together (40_dispatch.md R138). -/
def finishOk (r : Regs) (s : State) : State :=
  { s with regs := { r with status := statusWord okCode } }

/-- How the body of a command ends the command (40_dispatch.md R134, steps 3 and 4). -/
def endCommand (body : Res Regs) (s : State) : Host.Outcome State Fault Refusal :=
  match body with
  | .ok r => .next (finishOk r s)
  | .raise e => .next (raiseOutcome e s)
  | .fault f => .fault f

/-! ### Reset -/

/-- Reset: every register to its reset value; the buffer is not touched (40_dispatch.md R141; 70_reset_and_hazards.md R310). -/
def resetInstance (s : State) : State := { s with regs := Regs.reset }

/-- The environment attaches a complete buffer of at most 2^32 - 1 bytes between two commands (20_memory.md R60, R72, R75;
70_reset_and_hazards.md R312). -/
def attachBuffer (bytes : List Byte) (s : State) : Host.Outcome State Fault Refusal :=
  if bytes.length < 2 ^ 32 then .next { s with buf := Buffer.ofBytes bytes } else .refused .bufferTooLong

end Sys2Proof.Machine
end

