-- ==== Sys2Proof/Machine/Operands.lean ====
section
/-! DEFINITION. The operands: the window of a command (OFF, LIM, BUF_LEN) and the registers a host names by index. -/

namespace Sys2Proof.Machine

/-! ### The window -/

/-- a0, the cursor OFF when the command is issued (40_dispatch.md R137). -/
def State.cursor (s : State) : Nat := s.regs.off.toNat

/-- lim, the bound LIM when the command is issued (40_dispatch.md R137). -/
def State.bound (s : State) : Nat := s.regs.lim.toNat

/-- BUF_LEN (20_memory.md R60). -/
def State.bufLen (s : State) : Nat := s.buf.len.toNat

/-- The window is valid, compared as naturals (40_dispatch.md R136). -/
abbrev State.windowValid (s : State) : Prop := s.cursor ≤ s.bound ∧ s.bound ≤ s.bufLen

/-- The common prologue after decoding, the body, and the end of a command (40_dispatch.md R134, R136). -/
def runCommand (body : State → Res Regs) (s : State) : Host.Outcome State Fault Refusal :=
  if s.windowValid then endCommand (body s) s else .next (raiseOutcome .badWindow s)

/-! ### Registers by index -/

/-- The register index (10_state.md R21). -/
def regIdx : Reg → Nat
  | .cmd => 0
  | .status => 1
  | .off => 2
  | .lim => 3
  | .buflen => 4
  | .crc => 5
  | .valLo => 6
  | .valHi => 7
  | .strOff => 8
  | .strLen => 9
  | .mant => 10
  | .exp => 11
  | .hTag => 12
  | .hType => 13
  | .hLen => 14
  | .hTsLo => 15
  | .hTsHi => 16
  | .hSeq => 17
  | .hVer => 18
  | .hFlags => 19
  | .hRsvd => 20
  | .payOff => 21
  | .payLim => 22

/-- The register at an index; indices 23 and above are unmapped (10_state.md R21, R39). -/
def regOfIdx : Nat → Option Reg
  | 0 => some .cmd
  | 1 => some .status
  | 2 => some .off
  | 3 => some .lim
  | 4 => some .buflen
  | 5 => some .crc
  | 6 => some .valLo
  | 7 => some .valHi
  | 8 => some .strOff
  | 9 => some .strLen
  | 10 => some .mant
  | 11 => some .exp
  | 12 => some .hTag
  | 13 => some .hType
  | 14 => some .hLen
  | 15 => some .hTsLo
  | 16 => some .hTsHi
  | 17 => some .hSeq
  | 18 => some .hVer
  | 19 => some .hFlags
  | 20 => some .hRsvd
  | 21 => some .payOff
  | 22 => some .payLim
  | _ => none

/-- x[r] as it reads: CMD reads 0 (10_state.md R22), STATUS has bits 31:8 hardwired to 0 (R23; log entry 11), BUFLEN reads
BUF_LEN (R26). -/
def readReg (s : State) : Reg → Word
  | .cmd => 0
  | .status => statusWord (statusCode s.regs.status)
  | .off => s.regs.off
  | .lim => s.regs.lim
  | .buflen => s.buf.len
  | .crc => s.regs.crc
  | .valLo => s.regs.valLo
  | .valHi => s.regs.valHi
  | .strOff => s.regs.strOff
  | .strLen => s.regs.strLen
  | .mant => s.regs.mant
  | .exp => s.regs.exp
  | .hTag => s.regs.hTag
  | .hType => s.regs.hType
  | .hLen => s.regs.hLen
  | .hTsLo => s.regs.hTsLo
  | .hTsHi => s.regs.hTsHi
  | .hSeq => s.regs.hSeq
  | .hVer => s.regs.hVer
  | .hFlags => s.regs.hFlags
  | .hRsvd => s.regs.hRsvd
  | .payOff => s.regs.payOff
  | .payLim => s.regs.payLim

/-- The value HostRead(idx) returns (40_dispatch.md R131). -/
def hostReadValue (idx : Nat) (s : State) : Word :=
  match regOfIdx idx with
  | some r => readReg s r
  | none => 0

/-- HostRead(idx): the value goes to the host, no register changes (40_dispatch.md R131). -/
def hostRead (idx : Nat) (s : State) : State := { s with answers := hostReadValue idx s :: s.answers }

/-- HostWrite of OFF: any value accepted (40_dispatch.md R132). -/
def writeOff (v : Word) (s : State) : State := { s with regs := { s.regs with off := v } }

/-- HostWrite of LIM: any value accepted (40_dispatch.md R132). -/
def writeLim (v : Word) (s : State) : State := { s with regs := { s.regs with lim := v } }

end Sys2Proof.Machine
end

