-- ==== Sys2Proof/Machine/Crc.lean ====
section
/-! DEFINITION. The CRC-32 generator: commands CRC32 and CRCV (41_crc.md). -/

namespace Sys2Proof.Machine

/-- One bit step (41_crc.md R151). -/
def crcBit (c : Word) : Word :=
  if c.getLsbD 0 then (c >>> 1) ^^^ Config.crcPoly else c >>> 1

/-- One byte step: the byte into bits 7:0, then eight bit steps (41_crc.md R152). -/
def crcByte (c : Word) (b : Byte) : Word :=
  crcBit (crcBit (crcBit (crcBit (crcBit (crcBit (crcBit (crcBit (c ^^^ b.setWidth 32))))))))

/-- The raw register over the `n` bytes from offset `a` up, in ascending order (41_crc.md R153, with n = l - a). -/
def crcRaw (buf : Buffer) (c : Word) (a : Nat) : Nat → Res Word
  | 0 => .ok c
  | n + 1 => (readByte buf a).bind fun b => crcRaw buf (crcByte c b) (a + 1) n

/-- The checksum of the range [a, l), for a ≤ l (41_crc.md R154). -/
def crcRange (buf : Buffer) (a l : Nat) : Res Word :=
  (crcRaw buf Config.crcInit a (l - a)).bind fun c => .ok (c ^^^ Config.crcXorOut)

/-- The body of CRC32 (41_crc.md R156). -/
def crc32Body (s : State) : Res Regs :=
  (crcRange s.buf s.cursor s.bound).bind fun r => .ok { s.regs with crc := r }

/-- CRC32: checksum of the window (41_crc.md R156). -/
def execCrc32 (s : State) : Host.Outcome State Fault Refusal := runCommand crc32Body s

/-- The body of CRCV (41_crc.md R157). -/
def crcvBody (s : State) : Res Regs :=
  if s.bufLen < s.bound + 4 then .raise .badWindow
  else (crcRange s.buf s.cursor s.bound).bind fun r =>
    (memRead s.buf s.bound 4).bind fun t =>
      if r.toNat = t then .ok { s.regs with crc := r } else .raise .corrupt

/-- CRCV: checksum of the window compared with the trailer that follows it (41_crc.md R157). -/
def execCrcv (s : State) : Host.Outcome State Fault Refusal := runCommand crcvBody s

end Sys2Proof.Machine
end

