-- ==== Sys2Proof/Machine/Varint.lean ====
section
/-! DEFINITION. The stop-bit integer decoder: the group loop, and commands VU32 and VU64 (42_varint.md). -/

namespace Sys2Proof.Machine

/-- What the group loop yields: the folded value, the offset one past the last byte, the number of groups. -/
structure Groups where
  value : Nat
  next : Nat
  count : Nat
  deriving DecidableEq, Repr

/-- Fold one byte into the accumulator, an unbounded natural: `(value << 7) | (byte & 0x7F)` (30_encoding.md R107). -/
def foldGroup (v : Nat) (b : Byte) : Nat := (v <<< 7) ||| (b.toNat &&& 0x7F)

/-- The continuation flag, bit 7 of a group's byte: set means more bytes follow (30_encoding.md R106). -/
def continues (b : Byte) : Bool := b.getLsbD 7

/-- The loop of dec_u32 and dec_s32 (42_varint.md R170; 44_decimal.md R206). The first argument counts the groups that may
still be read; when none is left and the last byte had bit 7 set, a sixth group would follow: VAR_RANGE. -/
def groupLoop (buf : Buffer) (lim : Nat) : Nat → Groups → Res Groups
  | 0, _ => .raise .varRange
  | left + 1, g =>
    if lim ≤ g.next then .raise .fieldOverrun
    else (readByte buf g.next).bind fun b =>
      if continues b then groupLoop buf lim left ⟨foldGroup g.value b, g.next + 1, g.count + 1⟩
      else .ok ⟨foldGroup g.value b, g.next + 1, g.count + 1⟩

/-- dec_u32(a, lim): the value and the offset one past the last byte (42_varint.md R170). -/
def decU32 (buf : Buffer) (a lim : Nat) : Res (Nat × Nat) :=
  (groupLoop buf lim Config.varintMaxGroups ⟨0, a, 0⟩).bind fun g =>
    if 2 ^ 32 ≤ g.value then .raise .varRange else .ok (g.value, g.next)

/-- The body of VU32 (42_varint.md R171). -/
def vu32Body (s : State) : Res Regs :=
  (decU32 s.buf s.cursor s.bound).bind fun d =>
    .ok { s.regs with valLo := BitVec.ofNat 32 d.1, valHi := 0, off := BitVec.ofNat 32 d.2 }

/-- VU32: decode one unsigned stop-bit integer of at most 32 bits (42_varint.md R171). -/
def execVu32 (s : State) : Host.Outcome State Fault Refusal := runCommand vu32Body s

/-- The body of VU64: the high half, then the low half; all or nothing (42_varint.md R172). -/
def vu64Body (s : State) : Res Regs :=
  (decU32 s.buf s.cursor s.bound).bind fun hi =>
    (decU32 s.buf hi.2 s.bound).bind fun lo =>
      .ok { s.regs with valHi := BitVec.ofNat 32 hi.1, valLo := BitVec.ofNat 32 lo.1, off := BitVec.ofNat 32 lo.2 }

/-- VU64: decode a 64-bit unsigned sent as two stop-bit integers, high half first (42_varint.md R172). -/
def execVu64 (s : State) : Host.Outcome State Fault Refusal := runCommand vu64Body s

end Sys2Proof.Machine
end

