-- ==== Sys2Proof/Machine/Decimal.lean ====
section
/-! DEFINITION. The decimal decoder: command DEC (44_decimal.md). -/

namespace Sys2Proof.Machine

/-- The two's complement reading of the 7n value bits of n groups (44_decimal.md R206). -/
def signedGroups (v n : Nat) : Int :=
  if 2 ^ (7 * n - 1) ≤ v then (v : Int) - 2 ^ (7 * n) else (v : Int)

/-- dec_s32(a, lim): the mantissa and the offset one past its last byte (44_decimal.md R206). -/
def decS32 (buf : Buffer) (a lim : Nat) : Res (Int × Nat) :=
  (groupLoop buf lim Config.varintMaxGroups ⟨0, a, 0⟩).bind fun g =>
    if signedGroups g.value g.count < -2 ^ 31 ∨ 2 ^ 31 - 1 < signedGroups g.value g.count then .raise .varRange
    else .ok (signedGroups g.value g.count, g.next)

/-- The body of DEC: mantissa, then exponent byte (44_decimal.md R207). -/
def decBody (s : State) : Res Regs :=
  (decS32 s.buf s.cursor s.bound).bind fun d =>
    if s.bound ≤ d.2 then .raise .fieldOverrun
    else (readByte s.buf d.2).bind fun e8 =>
      .ok { s.regs with
        mant := BitVec.ofInt 32 d.1, exp := e8.signExtend 32, off := BitVec.ofNat 32 (d.2 + 1) }

/-- DEC: decode a decimal (44_decimal.md R207). -/
def execDec (s : State) : Host.Outcome State Fault Refusal := runCommand decBody s

end Sys2Proof.Machine
end

