-- ==== Sys2Proof/Machine/Header.lean ====
section
/-! DEFINITION. The frame-header fixed-field parser: command HDR (45_header.md). -/

namespace Sys2Proof.Machine

/-- The field extraction of the 28-byte header at `f` (45_header.md R226), with the payload slice of a frame of `len` bytes
(R227). -/
def headerFields (buf : Buffer) (f tag len : Nat) (r : Regs) : Res Regs :=
  (memRead buf (f + 4) 4).bind fun msgType =>
  (memRead buf (f + 12) 8).bind fun timestamp =>
  (memRead buf (f + 20) 4).bind fun seqNum =>
  (memRead buf (f + 24) 2).bind fun version =>
  (readByte buf (f + 26)).bind fun flags =>
  (readByte buf (f + 27)).bind fun reserved =>
  .ok { r with
    hTag := BitVec.ofNat 32 tag
    hType := BitVec.ofNat 32 msgType
    hLen := BitVec.ofNat 32 len
    hTsLo := BitVec.ofNat 32 (timestamp % 2 ^ 32)
    hTsHi := BitVec.ofNat 32 (timestamp / 2 ^ 32)
    hSeq := BitVec.ofNat 32 seqNum
    hVer := BitVec.ofNat 32 version
    hFlags := flags.setWidth 32
    hRsvd := reserved.setWidth 32
    payOff := BitVec.ofNat 32 (f + Config.headerSize)
    payLim := BitVec.ofNat 32 (f + len - Config.trailerSize) }

/-- The body of HDR, its checks in the order of 45_header.md R225 and R228. -/
def hdrBody (s : State) : Res Regs :=
  if s.bound - s.cursor < Config.headerSize then .raise .truncated
  else (memRead s.buf s.cursor 4).bind fun tag =>
    if tag ≠ s.magic.toNat then .raise .notAFrame
    else (memRead s.buf (s.cursor + 8) 4).bind fun len =>
      if len < Config.minFrame then .raise .badLength
      else if s.bound - s.cursor < len then .raise .truncated
      else headerFields s.buf s.cursor tag len s.regs

/-- HDR: parse and check the 28-byte frame header at the cursor (45_header.md R225). -/
def execHdr (s : State) : Host.Outcome State Fault Refusal := runCommand hdrBody s

end Sys2Proof.Machine
end

