-- ==== Sys2Proof/Machine/Str.lean ====
section
/-! DEFINITION. The length-prefixed string decoder: command STR (43_string.md). -/

namespace Sys2Proof.Machine

/-- The length a two-byte prefix states, in either layout (30_encoding.md R110; 43_string.md R191 for L15, R193 for L14). -/
def prefixLength (layout : Config.StrLenLayout) (b0 b1 : Byte) : Nat :=
  match layout with
  | .l15 => (b0.toNat &&& 0x7F) * 256 + b1.toNat
  | .l14 => (b0.toNat &&& 0x7F) * 128 + (b1.toNat &&& 0x7F)

/-- dec_strlen(a, lim): the length and the offset one past the prefix (43_string.md R191). -/
def decStrLen (buf : Buffer) (a lim : Nat) : Res (Nat × Nat) :=
  if lim ≤ a then .raise .fieldOverrun
  else (readByte buf a).bind fun b0 =>
    if continues b0 then
      if lim ≤ a + 1 then .raise .fieldOverrun
      else (readByte buf (a + 1)).bind fun b1 => .ok (prefixLength Config.strLenLayout b0 b1, a + 2)
    else .ok (b0.toNat &&& 0x7F, a + 1)

/-- The body of STR: the content is bounded, never read (43_string.md R190, R192). -/
def strBody (s : State) : Res Regs :=
  (decStrLen s.buf s.cursor s.bound).bind fun d =>
    if s.bound < d.2 + d.1 then .raise .fieldOverrun
    else .ok { s.regs with
      strOff := BitVec.ofNat 32 d.2, strLen := BitVec.ofNat 32 d.1, off := BitVec.ofNat 32 (d.2 + d.1) }

/-- STR: decode a length-prefixed string (43_string.md R192). -/
def execStr (s : State) : Host.Outcome State Fault Refusal := runCommand strBody s

end Sys2Proof.Machine
end

