-- ==== Sys2Proof/Machine/Dispatch.lean ====
section
/-! DEFINITION. One arm per command (40_dispatch.md R137). -/

namespace Sys2Proof.Machine

def exec (i : Instr) (s : State) : Host.Outcome State Fault Refusal :=
  match i with
  | .crc32 => Sys2Proof.Machine.execCrc32 s
  | .crcv => Sys2Proof.Machine.execCrcv s
  | .vu32 => Sys2Proof.Machine.execVu32 s
  | .vu64 => Sys2Proof.Machine.execVu64 s
  | .str => Sys2Proof.Machine.execStr s
  | .dec => Sys2Proof.Machine.execDec s
  | .hdr => Sys2Proof.Machine.execHdr s

end Sys2Proof.Machine
end

