-- ==== Sys2Proof/Machine/Transactions.lean ====
section
/-! DEFINITION. What one host transaction or one event of the environment does (40_dispatch.md R130 to R135, R141; 20_memory.md
R70, R72, R75). -/

namespace Sys2Proof.Machine

/-- HostWrite(0, w): one command, executed to completion (40_dispatch.md R134); an illegal word first of all gives
ILLEGAL_CMD (R135). The word is not kept. -/
def issueCommand (w : Word) (s : State) : Host.Outcome State Fault Refusal :=
  match decode w with
  | .ok i => exec i s
  | .error _ => .next (raiseOutcome .illegalCmd s)

/-- HostWrite(idx, v): CMD executes a command (40_dispatch.md R134), OFF and LIM are written (R132), every other index is
ignored (R133; 10_state.md R39). -/
def hostWrite (idx : Nat) (v : Word) (s : State) : Host.Outcome State Fault Refusal :=
  match regOfIdx idx with
  | some .cmd => issueCommand v s
  | some .off => .next (writeOff v s)
  | some .lim => .next (writeLim v s)
  | _ => .next s

/-- One transaction of the host (40_dispatch.md R130). -/
def hostTransact (t : HostTxn) (s : State) : Host.Outcome State Fault Refusal :=
  match t with
  | .read idx => .next (hostRead idx s)
  | .write idx v => hostWrite idx v s
  | .reset => .next (resetInstance s)

/-- One event from outside: a transaction of the host, a buffer attached between two commands, or a launch that
20_memory.md R70 tells the model to refuse. -/
def perform (e : Event) (s : State) : Host.Outcome State Fault Refusal :=
  match e with
  | .host t => hostTransact t s
  | .attach bytes => attachBuffer bytes s
  | .disturbed _ => .refused .bufferChangedDuringCommand

/-- The state with one more event before all that are pending. -/
def pushEvent (e : Event) (s : State) : State := { s with pending := e :: s.pending }

end Sys2Proof.Machine
end

