-- ==== Sys2Proof/Machine/Step.lean ====
section
/-! DEFINITION. One step: the oldest pending transaction, as one atomic step of the model (40_dispatch.md R130). The block
never runs by itself: with nothing pending it is quiescent (70_reset_and_hazards.md R321; log entry 5). -/

namespace Sys2Proof.Machine

def step (s : State) : Host.Outcome State Fault Refusal :=
  match s.pending with
  | [] => .next s
  | e :: rest => perform e { s with pending := rest }

/-- The command word `w` placed where `step` takes its next command: the host's next transaction is HostWrite(0, w) (40_dispatch.md
R134; log entry 5). -/
def State.withFetchWord (s : State) (nbits w : Nat) : State :=
  pushEvent (.host (.write 0 (BitVec.ofNat 32 (w % 2 ^ nbits)))) s

end Sys2Proof.Machine
end

