-- ==== Sys2Proof/Machine/Script.lean ====
section
/-! DEFINITION. The host script: its lines, its pseudo-instructions and how a host runs them against one instance
(30_encoding.md R118, R119; log entry 13). -/

namespace Sys2Proof.Machine

/-- A host running a script: what it has read (`$r`, newest first) and the instance it drives. -/
structure ScriptState where
  got : List (Reg × Word)
  sfpu : State
  deriving DecidableEq, Repr

/-- `$r`: the value last read from register r (R118). -/
def lastRead (r : Reg) : List (Reg × Word) → Option Word
  | [] => none
  | (q, v) :: rest => if q = r then some v else lastRead r rest

/-- The value of an expression, modulo 2^32 (R118); the error names a register no earlier line has read. -/
def evalExpr (got : List (Reg × Word)) : ScriptExpr → Except Reg Word
  | .const v => .ok v
  | .got r =>
    match lastRead r got with
    | some v => .ok v
    | none => .error r
  | .add a b =>
    match evalExpr got a, evalExpr got b with
    | .ok x, .ok y => .ok (x + y)
    | .error r, _ => .error r
    | .ok _, .error r => .error r

/-- The register a line sets. -/
def setReg : SetReg → Reg
  | .off => .off
  | .lim => .lim

/-- The host transaction of a line (R118, column "bus transaction"). -/
def lineTxn (got : List (Reg × Word)) : ScriptLine → Except Reg HostTxn
  | .set d v =>
    match evalExpr got v with
    | .ok x => .ok (.write (regIdx (setReg d)) x)
    | .error r => .error r
  | .issue i => .ok (.write (regIdx .cmd) (encode i))
  | .get r => .ok (.read (regIdx r))
  | .reset => .ok .reset

/-- What the host has read after a line: `GET r` makes the value read `$r` (R118). -/
def gotAfter (l : ScriptLine) (h : ScriptState) : List (Reg × Word) :=
  match l with
  | .set _ _ => h.got
  | .issue _ => h.got
  | .get r => (r, hostReadValue (regIdx r) h.sfpu) :: h.got
  | .reset => h.got

/-- Run one line (R118). -/
def runLine (l : ScriptLine) (h : ScriptState) : Host.Outcome ScriptState Fault Refusal :=
  match lineTxn h.got l with
  | .error r => .refused (.scriptValueNotRead r)
  | .ok t =>
    match hostTransact t h.sfpu with
    | .next s' => .next ⟨gotAfter l h, s'⟩
    | .fault f => .fault f
    | .refused r => .refused r

/-- Run lines in order (R118). -/
def runLines : List ScriptLine → ScriptState → Host.Outcome ScriptState Fault Refusal
  | [], h => .next h
  | l :: ls, h =>
    match runLine l h with
    | .next h' => runLines ls h'
    | .fault f => .fault f
    | .refused r => .refused r

/-- The expansion of a pseudo-instruction (R119). -/
def expandPseudo : Pseudo → List ScriptLine
  | .window a b => [.set .off a, .set .lim b]
  | .mov rd rs => [.get rs, .set rd (.got rs)]
  | .enter => [.get .payOff, .set .off (.got .payOff), .get .payLim, .set .lim (.got .payLim)]
  | .skip n => [.get .off, .set .off (.add (.got .off) n)]
  | .check => [.get .payLim, .set .lim (.got .payLim), .issue .crcv]
  | .next f => [.get .hLen, .set .off (.add f (.got .hLen)), .get .buflen, .set .lim (.got .buflen)]

end Sys2Proof.Machine
end

