-- ==== Sys2Proof/Machine/System.lean ====
section
/-! DEFINITION. N instances on one buffer: the product of N single-instance models over one BUF (60_exceptions.md R288;
20_memory.md R74; log entry 14). -/

namespace Sys2Proof.Machine

/-- What one instance has of its own: everything of `State` but the shared buffer. -/
structure Sfpu where
  regs : Regs
  magic : Word
  pending : List Event
  answers : List Word
  deriving DecidableEq, Repr

/-- N_INST = `units.length` instances and the one buffer they read. -/
structure System where
  buf : Buffer
  units : List Sfpu
  deriving DecidableEq, Repr

/-- An instance as the single-instance machine sees it. -/
def unitState (buf : Buffer) (u : Sfpu) : State :=
  { regs := u.regs, buf := buf, magic := u.magic, pending := u.pending, answers := u.answers }

/-- What a state has of its own. -/
def unitOf (s : State) : Sfpu :=
  { regs := s.regs, magic := s.magic, pending := s.pending, answers := s.answers }

/-- N instances after reset: each in its own reset state (R288). -/
def systemReset (n : Nat) : System := ⟨State.reset.buf, List.replicate n (unitOf State.reset)⟩

/-- One step of instance `k`; the schedule that picks `k` is any (R74, R288). -/
def stepUnit (k : Nat) (sys : System) : Host.Outcome System Fault Refusal :=
  match sys.units[k]? with
  | none => .refused (.noSuchInstance k)
  | some u =>
    match step (unitState sys.buf u) with
    | .next t => .next ⟨t.buf, sys.units.set k (unitOf t)⟩
    | .fault f => .fault f
    | .refused r => .refused r

/-- The steps of a schedule, in order. -/
def runSchedule : List Nat → System → Host.Outcome System Fault Refusal
  | [], sys => .next sys
  | k :: ks, sys =>
    match stepUnit k sys with
    | .next sys' => runSchedule ks sys'
    | .fault f => .fault f
    | .refused r => .refused r

end Sys2Proof.Machine
end

