-- ==== Sys2Proof/Machine/Wire.lean ====
section
/-! DEFINITION. The wire formats as an encoder outside the block writes them (30_encoding.md R100, R106 to R111). The SFPU has
no encoder (00_scope.md R2): the statements use these to say what bytes stand in the buffer. -/

namespace Sys2Proof.Machine

/-- The spelling of `v` in `n` groups, most significant first; every byte but the last has bit 7 set (30_encoding.md R106, R107). -/
def spellGroups : Nat → Nat → List Byte
  | 0, _ => []
  | k + 1, v =>
    (if k = 0 then BitVec.ofNat 8 (v % 128) else BitVec.ofNat 8 (128 + v / 128 ^ k % 128)) :: spellGroups k v

/-- The minimal number of groups of an unsigned integer below 2^32 (30_encoding.md R108). -/
def minGroups (v : Nat) : Nat :=
  if v < 128 then 1 else if v < 16384 then 2 else if v < 2097152 then 3 else if v < 268435456 then 4 else 5

/-- The spelling of a signed integer in `n` groups: two's complement over the 7n value bits (30_encoding.md R111). -/
def spellSigned (n : Nat) (m : Int) : List Byte := spellGroups n (m % 128 ^ n).toNat

/-- The length prefix of a string (30_encoding.md R110). -/
def spellStrLen (len : Nat) : List Byte :=
  if len < 128 then [BitVec.ofNat 8 len] else [BitVec.ofNat 8 (128 + len / 256), BitVec.ofNat 8 (len % 256)]

/-- The `n` bytes of a fixed-width integer, little-endian (20_memory.md R63). -/
def leBytes : Nat → Nat → List Byte
  | 0, _ => []
  | n + 1, v => BitVec.ofNat 8 (v % 256) :: leBytes n (v / 256)

/-- The nine fields of the fixed header, at their widths on the wire (30_encoding.md R100, R101). -/
structure HeaderFields where
  startTag : Word
  msgType : Word
  msgLength : Word
  timestamp : BitVec 64
  seqNum : Word
  version : BitVec 16
  flags : Byte
  reserved : Byte
  deriving DecidableEq, Repr

/-- The 28 bytes of the header (30_encoding.md R100). -/
def headerBytes (h : HeaderFields) : List Byte :=
  leBytes 4 h.startTag.toNat ++ leBytes 4 h.msgType.toNat ++ leBytes 4 h.msgLength.toNat ++
  leBytes 8 h.timestamp.toNat ++ leBytes 4 h.seqNum.toNat ++ leBytes 2 h.version.toNat ++ [h.flags, h.reserved]

end Sys2Proof.Machine
end

