-- ==== Sys2Proof/Machine/Template.lean ====
section
/-! DEFINITION. What a host knows of a payload's fields: the "market data" template and the presence map (30_encoding.md R112 to
R114). The block reads neither (00_scope.md R5 (a)): a host picks its commands with them. -/

namespace Sys2Proof.Machine

/-- The wire types of a field (30_encoding.md R114; 50_system_context.md R254). -/
inductive WireType where
  | uint32 | uint64 | decimal | string | timestamp
  deriving DecidableEq, Repr

/-- The command that decodes a wire type (30_encoding.md R114; 90_conflicts.md C10). -/
def wireCommand : WireType → Instr
  | .uint32 => .vu32
  | .uint64 => .vu64
  | .decimal => .dec
  | .string => .str
  | .timestamp => .vu64

/-- A field of the template; its bit of the presence map, where it has one (30_encoding.md R113, R114). -/
structure TemplateField where
  name : String
  wire : WireType
  presenceBit : Option Nat
  deriving DecidableEq, Repr

/-- The "market data" template: 10 fields, of which the last two have no bit (30_encoding.md R114; 90_conflicts.md C4). -/
def marketData : List TemplateField :=
  [⟨"Symbol", .string, some 7⟩, ⟨"BidPrice", .decimal, some 6⟩, ⟨"BidSize", .uint32, some 5⟩,
    ⟨"AskPrice", .decimal, some 4⟩, ⟨"AskSize", .uint32, some 3⟩, ⟨"LastPrice", .decimal, some 2⟩,
    ⟨"LastSize", .uint32, some 1⟩, ⟨"Volume", .uint64, some 0⟩, ⟨"Timestamp", .timestamp, none⟩,
    ⟨"Exchange", .string, none⟩]

/-- `template_for(template_id)`: the one template, under its id; none for an unknown id (50_system_context.md R254). The id's
value is in no source (00_scope.md R7), so it is an argument. -/
def templateFor (marketDataId id : Byte) : Option (List TemplateField) :=
  if id = marketDataId then some marketData else none

/-- The fields of a template whose bit is set, in template order (30_encoding.md R113). Whether the two fields without a bit are
on the wire is open (93 U5; log entry 15): they are never among these. -/
def presentIn (template : List TemplateField) (map : Byte) : List TemplateField :=
  template.filter fun f => match f.presenceBit with
    | some k => map.getLsbD k
    | none => false

/-- The fields of the "market data" template that a presence map states. -/
def presentFields (map : Byte) : List TemplateField := presentIn marketData map

/-- The commands a host issues for the fields a presence map states (30_encoding.md R114; 50_system_context.md R268 (5)). -/
def fieldCommands (map : Byte) : List Instr := (presentFields map).map fun f => wireCommand f.wire

end Sys2Proof.Machine
end

