-- ==== Sys2Proof/Machine/Worker.lean ====
section
/-! DEFINITION. One iteration of a worker's loop, as a host drives an instance with the seven commands (50_system_context.md
R268; log entry 17). Every access to the instance is a host transaction (40_dispatch.md R130); the host reads the buffer
itself where R268 says so. -/

namespace Sys2Proof.Machine

/-- Go on with what the instance answered; a stop stops the host. -/
def andThen {α β : Type} (o : Host.Outcome α Fault Refusal) (k : α → Host.Outcome β Fault Refusal) :
    Host.Outcome β Fault Refusal :=
  match o with
  | .next a => k a
  | .fault f => .fault f
  | .refused r => .refused r

/-! ### The host's transactions -/

/-- HostRead of a register by name: the value, and the instance after it. -/
def hostGet (r : Reg) (s : State) : Word × State := (hostReadValue (regIdx r) s, hostRead (regIdx r) s)

/-- HostReads in order. -/
def hostGetAll : List Reg → State → List Word × State
  | [], s => ([], s)
  | r :: rs, s => ((hostGet r s).1 :: (hostGetAll rs (hostGet r s).2).1, (hostGetAll rs (hostGet r s).2).2)

/-- The error outcomes a host can meet in STATUS (60_exceptions.md R281). -/
def statusErrs : List Err :=
  [.notAFrame, .truncated, .corrupt, .unsupportedTemplate, .fieldOverrun, .varRange, .badLength, .badWindow, .illegalCmd]

/-- The error outcome that a value read from STATUS names; none for OK. -/
def errOfStatus (status : Word) : Option Err := statusErrs.find? fun e => statusWord e.code == status

/-- Issue a command, then read STATUS (70_reset_and_hazards.md R314): the error outcome, if any. -/
def hostCommand (i : Instr) (s : State) : Host.Outcome (Option Err × State) Fault Refusal :=
  andThen (hostTransact (.write (regIdx .cmd) (encode i)) s) fun t =>
    .next (errOfStatus (hostGet .status t).1, (hostGet .status t).2)

/-! ### The fields of a payload: R268 (5) -/

/-- The registers in which the command of a wire type leaves its result (10_state.md R28 to R30). -/
def resultRegs : WireType → List Reg
  | .uint32 => [.valLo]
  | .uint64 => [.valHi, .valLo]
  | .decimal => [.mant, .exp]
  | .string => [.strOff, .strLen]
  | .timestamp => [.valHi, .valLo]

/-- A field of the template and the words read from its result registers, in the order of `resultRegs`. -/
structure DecodedField where
  field : TemplateField
  words : List Word
  deriving DecidableEq, Repr

/-- R268 (5): one command per field, in order, the result registers read after each; the first error outcome ends it. -/
def decodeFields : List TemplateField → State → Host.Outcome (Except Err (List DecodedField) × State) Fault Refusal
  | [], s => .next (.ok [], s)
  | f :: fs, s =>
    andThen (hostCommand (wireCommand f.wire) s) fun (err, t) =>
      match err with
      | some e => .next (.error e, t)
      | none =>
        andThen (decodeFields fs (hostGetAll (resultRegs f.wire) t).2) fun (r, u) =>
          .next (r.map (⟨f, (hostGetAll (resultRegs f.wire) t).1⟩ :: ·), u)

/-! ### One candidate: R268 (1) to (5) -/

/-- What comes of a candidate offset. -/
inductive Verdict where
  /-- NOT_A_FRAME: there is no marker at that offset (R268 (1)). -/
  | noMarker
  /-- The candidate or its frame is rejected (R268 (2) to (5)). `unsupportedTemplate` is the host's own error (R254). -/
  | rejected (e : Err)
  /-- A good frame, its present fields decoded. -/
  | accepted (fields : List DecodedField)
  deriving DecidableEq, Repr

/-- R268 (4): the host reads the template id and the presence map, the two bytes at PAY_OFF, itself. -/
def readIdAndMap (buf : Buffer) (payOff : Nat) : Res (Byte × Byte) :=
  (readByte buf payOff).bind fun id => (readByte buf (payOff + 1)).bind fun map => .ok (id, map)

/-- R268 (4), (5), with LIM still at PAY_LIM. -/
def decodePayload (marketDataId : Byte) (s : State) : Host.Outcome (Verdict × State) Fault Refusal :=
  let (payOff, t) := hostGet .payOff s
  match readIdAndMap t.buf payOff.toNat with
  | .fault f => .fault f
  | .raise e => .next (.rejected e, t)
  | .ok (id, map) =>
    match templateFor marketDataId id with
    | none => .next (.rejected .unsupportedTemplate, t)
    | some template =>
      andThen (decodeFields (presentIn template map) (writeOff (payOff + 2#32) t)) fun (r, u) =>
        match r with
        | .ok fields => .next (.accepted fields, u)
        | .error e => .next (.rejected e, u)

/-- R268 (3): `SET LIM, x[PAY_LIM]` ; `CRCV`. -/
def verifyFrame (marketDataId : Byte) (s : State) : Host.Outcome (Verdict × State) Fault Refusal :=
  let (payLim, t) := hostGet .payLim s
  andThen (hostCommand .crcv (writeLim payLim t)) fun (err, u) =>
    match err with
    | some e => .next (.rejected e, u)
    | none => decodePayload marketDataId u

/-- R268 (1), (2): `SET OFF, c` ; `SET LIM, BUF_LEN` ; `HDR`, with BUF_LEN as BUFLEN reads. -/
def attempt (marketDataId : Byte) (c : Word) (s : State) : Host.Outcome (Verdict × State) Fault Refusal :=
  let (bufLen, t) := hostGet .buflen (writeOff c s)
  andThen (hostCommand .hdr (writeLim bufLen t)) fun (err, u) =>
    match err with
    | some .notAFrame => .next (.noMarker, u)
    | some e => .next (.rejected e, u)
    | none => verifyFrame marketDataId u

/-! ### The iteration -/

/-- The two ways of R268 (1) to search. -/
inductive SearchBy where
  /-- The host looks for MAGIC itself. -/
  | host
  /-- The host issues HDR at each offset. -/
  | hdr
  deriving DecidableEq, Repr

/-- The 4 bytes at c are in the buffer and are MAGIC, little-endian (30_encoding.md R100). -/
def markerAt (s : State) (c : Nat) : Bool := decide (memRead s.buf c 4 = .ok s.magic.toNat)

/-- How many offsets from c on are candidates: those with at least HEADER_SIZE bytes before the assigned end (90_conflicts.md
C8). -/
def candidates (c e : Word) : Nat := e.toNat + 1 - (c.toNat + Config.headerSize)

/-- R268 (1): the first of n offsets from c on at which a marker stands, and what comes of it. -/
def seek (how : SearchBy) (marketDataId : Byte) :
    Nat → Word → State → Host.Outcome (Option (Word × Except Err (List DecodedField)) × State) Fault Refusal
  | 0, _, s => .next (none, s)
  | n + 1, c, s =>
    if how = .host ∧ markerAt s c.toNat = false then seek how marketDataId n (c + 1#32) s
    else
      andThen (attempt marketDataId c s) fun (v, t) =>
        match v with
        | .noMarker => seek how marketDataId n (c + 1#32) t
        | .rejected e => .next (some (c, .error e), t)
        | .accepted fields => .next (some (c, .ok fields), t)

/-- What one iteration comes to, with the cursor after it. -/
inductive Iteration where
  /-- No candidate is left before the assigned end (50_system_context.md R259; 90_conflicts.md C8). -/
  | done
  /-- The candidate at this offset is rejected. -/
  | rejected (candidate : Word) (e : Err) (cursor : Word)
  /-- The frame at this offset is good. -/
  | accepted (frame : Word) (fields : List DecodedField) (cursor : Word)
  deriving DecidableEq, Repr

/-- R268: one iteration, for a worker whose cursor is c and whose assigned end is e. On success the cursor becomes the frame's
offset plus H_LEN; on rejection it is what the host's policy says, given the error, the candidate and the registers. -/
def workerIteration (how : SearchBy) (marketDataId : Byte) (policy : Err → Word → Regs → Word) (c e : Word) (s : State) :
    Host.Outcome (Iteration × State) Fault Refusal :=
  andThen (seek how marketDataId (candidates c e) c s) fun (found, t) =>
    match found with
    | none => .next (.done, t)
    | some (a, .error err) => .next (.rejected a err (policy err a t.regs), t)
    | some (a, .ok fields) => .next (.accepted a fields (a + (hostGet .hLen t).1), (hostGet .hLen t).2)

/-- The policy of the scanner's loop: one byte on (50_system_context.md R259; 90_conflicts.md C2). -/
def nextByte : Err → Word → Regs → Word := fun _ a _ => a + 1#32

end Sys2Proof.Machine
end

