-- ==== Sys2Proof/Safety.lean ====
section
/-! DEFINITION. The words the statements use: what the spec's tables say of each command, sums over buffer bytes, and the
invariant of the machine. -/

namespace Sys2Proof.Safety

open Sys2Proof.Machine

/-- The registers a command may write when it ends OK, besides STATUS (10_state.md R21, column "written by the SFPU on"). -/
def writesOf : Instr → List Reg
  | .crc32 => [.crc]
  | .crcv => [.crc]
  | .vu32 => [.valLo, .valHi, .off]
  | .vu64 => [.valLo, .valHi, .off]
  | .str => [.strOff, .strLen, .off]
  | .dec => [.mant, .exp, .off]
  | .hdr => [.hTag, .hType, .hLen, .hTsLo, .hTsHi, .hSeq, .hVer, .hFlags, .hRsvd, .payOff, .payLim]

/-- The outcome codes a command with a legal word can end with (60_exceptions.md R282). -/
def outcomesOf : Instr → List Byte
  | .crc32 => [0x00#8, 0x12#8]
  | .crcv => [0x00#8, 0x03#8, 0x12#8]
  | .vu32 => [0x00#8, 0x05#8, 0x10#8, 0x12#8]
  | .vu64 => [0x00#8, 0x05#8, 0x10#8, 0x12#8]
  | .str => [0x00#8, 0x05#8, 0x12#8]
  | .dec => [0x00#8, 0x05#8, 0x10#8, 0x12#8]
  | .hdr => [0x00#8, 0x01#8, 0x02#8, 0x11#8, 0x12#8]

/-- Every code the SFPU produces (60_exceptions.md R281 without UNSUPPORTED_TEMPLATE). -/
def producedCodes : List Byte :=
  [0x00#8, 0x01#8, 0x02#8, 0x03#8, 0x05#8, 0x10#8, 0x11#8, 0x12#8, 0x13#8]

/-- The exclusive end of what a command may read: LIM, and for CRCV the 4 bytes after it (20_memory.md R69). -/
def readEnd (i : Instr) (s : State) : Nat := if i = .crcv then s.bound + 4 else s.bound

/-- The bytes of the window [OFF, LIM), in ascending offset order (20_memory.md R67). -/
def windowBytes (s : State) : List Byte :=
  (List.range (s.bound - s.cursor)).map fun i => s.buf.byteAt (s.cursor + i)

/-- `checksum(bytes) -> u32` on a list of bytes (41_crc.md R153, R154). -/
def checksum (bytes : List Byte) : Word := ~~~(bytes.foldl crcByte 0xFFFFFFFF#32)

/-- The bit-serial form of the byte step: bits of `b` from bit 0 up (41_crc.md R152, "An equal formulation"). -/
def crcSerial (c : Word) (b : Byte) : Word :=
  (List.range 8).foldl
    (fun c i => if (c.getLsbD 0 ^^ b.getLsbD i) then (c >>> 1) ^^^ 0xEDB88320#32 else c >>> 1) c

/-- The sum for MemRead(a, n): BUF[a+i] * 256^i (20_memory.md R63). -/
def leSum (buf : Buffer) (a n : Nat) : Nat := ∑ i ∈ Finset.range n, (buf.byteAt (a + i)).toNat * 256 ^ i

/-- The sum for n groups at a: (b_i & 0x7F) * 128^(n-1-i) (30_encoding.md R107). -/
def groupSum (buf : Buffer) (a n : Nat) : Nat :=
  ∑ i ∈ Finset.range n, (buf.byteAt (a + i)).toNat % 128 * 128 ^ (n - 1 - i)

/-- The byte at offset a has bit 7 set: more bytes follow (30_encoding.md R106). -/
abbrev moreAt (buf : Buffer) (a : Nat) : Prop := 128 ≤ (buf.byteAt a).toNat

/-- A stop-bit integer of n groups, 1 to 5, stands at a and ends before lim (30_encoding.md R106; 42_varint.md R170). -/
abbrev stopBitAt (buf : Buffer) (a n lim : Nat) : Prop :=
  1 ≤ n ∧ n ≤ 5 ∧ a + n ≤ lim ∧ (∀ i < n - 1, moreAt buf (a + i)) ∧ ¬ moreAt buf (a + (n - 1))

/-- Bytes with bit 7 set run from a up to the bound, fewer than five of them (42_varint.md R170). -/
abbrev unfinishedAt (buf : Buffer) (a lim : Nat) : Prop :=
  a ≤ lim ∧ lim < a + 5 ∧ ∀ i < lim - a, moreAt buf (a + i)

/-- Five bytes with bit 7 set stand at a inside the bound (42_varint.md R170). -/
abbrev tooLongAt (buf : Buffer) (a lim : Nat) : Prop := a + 5 ≤ lim ∧ ∀ i < 5, moreAt buf (a + i)

/-- The integer that n groups at a denote in two's complement over their 7n value bits (44_decimal.md R206). -/
def signedSum (buf : Buffer) (a n : Nat) : Int :=
  if (buf.byteAt a).toNat % 128 < 64 then (groupSum buf a n : Int) else (groupSum buf a n : Int) - 128 ^ n

/-- These bytes stand in the buffer from offset a up, before lim. -/
abbrev standsAt (buf : Buffer) (a lim : Nat) (bytes : List Byte) : Prop :=
  a + bytes.length ≤ lim ∧ ∀ i < bytes.length, buf.byteAt (a + i) = bytes.getD i 0

/-- The msg_length field of a frame at f (30_encoding.md R100). -/
def lengthAt (buf : Buffer) (f : Nat) : Nat := leSum buf (f + 8) 4

/-- The trailer of the frame at f is the checksum of the bytes before it (30_encoding.md R102). -/
abbrev trailerAgrees (buf : Buffer) (f : Nat) : Prop :=
  (checksum ((List.range (lengthAt buf f - 4)).map fun i => buf.byteAt (f + i))).toNat =
    leSum buf (f + lengthAt buf f - 4) 4

/-- The first offset from c on at which a marker stands, no later than 28 bytes before e, is a (50_system_context.md R268 (1);
90_conflicts.md C8). -/
abbrev firstMarker (s : State) (c e a : Nat) : Prop :=
  c ≤ a ∧ a + 28 ≤ e ∧ leSum s.buf a 4 = s.magic.toNat ∧ ∀ b : Nat, c ≤ b → b < a → leSum s.buf b 4 ≠ s.magic.toNat

/-- The registers with STATUS set to this code. -/
def withStatus (r : Regs) (code : Byte) : Regs := { r with status := code.setWidth 32 }

/-- The state a command leaves when it ends with an error outcome of this code (60_exceptions.md R285). -/
def ended (s : State) (code : Byte) : State := { s with regs := withStatus s.regs code }

/-- The state in which the host's next transaction, or the environment's next act, is `e`. -/
def facing (e : Event) (rest : List Event) (s : State) : State := { s with pending := e :: rest }

/-- The state once that event has been taken off the queue. -/
def taken (rest : List Event) (s : State) : State := { s with pending := rest }

/-- The register file as a host reads it, index by index (10_state.md R21): CMD reads 0, STATUS has bits 31:8 zero, BUFLEN
reads BUF_LEN. -/
def registerFile (s : State) : List Word :=
  [0#32, s.regs.status &&& 0xFF#32, s.regs.off, s.regs.lim, s.buf.len, s.regs.crc, s.regs.valLo, s.regs.valHi,
    s.regs.strOff, s.regs.strLen, s.regs.mant, s.regs.exp, s.regs.hTag, s.regs.hType, s.regs.hLen, s.regs.hTsLo,
    s.regs.hTsHi, s.regs.hSeq, s.regs.hVer, s.regs.hFlags, s.regs.hRsvd, s.regs.payOff, s.regs.payLim]

/-- The invariant: 10_state.md R40 (a), (b), (c), and what follows from the command rules for every later state: the header
registers are those of no frame or of one frame (45_header.md R225, R227), the last string's end is an offset
(43_string.md R192), and the buffer is in its canonical form. -/
structure Inv (s : State) : Prop where
  /-- R40 (a), first half. -/
  statusHigh : s.regs.status >>> 8 = 0#32
  /-- R40 (a), second half. -/
  statusCode : s.regs.status.setWidth 8 ∈ producedCodes
  /-- R40 (b). -/
  verHigh : s.regs.hVer >>> 16 = 0#32
  /-- R40 (b). -/
  flagsHigh : s.regs.hFlags >>> 8 = 0#32
  /-- R40 (b). -/
  rsvdHigh : s.regs.hRsvd >>> 8 = 0#32
  /-- R40 (c). -/
  expRange : -128 ≤ s.regs.exp.toInt ∧ s.regs.exp.toInt ≤ 127
  /-- No frame has been parsed since reset, or the registers hold one frame's. -/
  header : (s.regs.hTag = 0#32 ∧ s.regs.hLen = 0#32 ∧ s.regs.payOff = 0#32 ∧ s.regs.payLim = 0#32) ∨
    (s.regs.hTag = s.magic ∧ 32 ≤ s.regs.hLen.toNat ∧ 28 ≤ s.regs.payOff.toNat ∧
      s.regs.payLim.toNat + 32 = s.regs.payOff.toNat + s.regs.hLen.toNat)
  /-- The last string ends at an offset below 2^32. -/
  string : s.regs.strOff.toNat + s.regs.strLen.toNat < 2 ^ 32
  /-- The buffer is canonical and lists only offsets below BUF_LEN. -/
  buffer : s.buf.wf = true

end Sys2Proof.Safety
end

