-- ==== Sys2Proof/Certificates/Slice0/Obligations.lean ====
section
/-! DEFINITION. The statements about the SFPU, each from the rules of spec/ its docstring names. `facing e rest s` is the
state in which `e` is the next transaction and `rest` what follows; `taken rest s` is that state once `e` is off the queue;
`ended s code` is `s` with STATUS = code and nothing else changed. The queue through which a transaction reaches a step is the
model's (log entry 5). -/

open Sys2Proof Sys2Proof.Machine Sys2Proof.Safety

/-! ### Reset, host access, dispatch -/

/-- 10_state.md R38, 70_reset_and_hazards.md R311: after reset every register reads 0 except BUFLEN, which reads BUF_LEN, and
the buffer is not touched; at `State.reset` and after a Reset transaction in any state. -/
def Obligations.ResetZeroesEveryRegister : Prop :=
  (∀ r : Reg, readReg State.reset r = if r = .buflen then State.reset.buf.len else 0#32) ∧
  ∀ (s : State) (rest : List Event), ∃ t : State,
    step (facing (.host .reset) rest s) = .next t ∧
    (∀ r : Reg, readReg t r = if r = .buflen then s.buf.len else 0#32) ∧
    t = { s with regs := Regs.reset, pending := rest }

/-- 40_dispatch.md R131: HostRead(idx) returns x[idx], 0 for CMD and for idx ≥ 23, and changes no register. That the answer
goes to the list `answers` is the model's (log entry 5). -/
def Obligations.HostReadReturnsTheRegister : Prop :=
  ∀ (s : State) (rest : List Event) (idx : Nat),
    step (facing (.host (.read idx)) rest s) =
      .next { s with pending := rest, answers := (registerFile s).getD idx 0#32 :: s.answers }

/-- 40_dispatch.md R132: HostWrite of OFF and of LIM takes any value and changes nothing else. -/
def Obligations.HostWriteSetsOffAndLim : Prop :=
  ∀ (s : State) (rest : List Event) (v : Word),
    step (facing (.host (.write 2 v)) rest s) = .next { s with pending := rest, regs := { s.regs with off := v } } ∧
    step (facing (.host (.write 3 v)) rest s) = .next { s with pending := rest, regs := { s.regs with lim := v } }

/-- 40_dispatch.md R133: HostWrite of a read-only or unmapped index is ignored. -/
def Obligations.HostWriteElsewhereIsIgnored : Prop :=
  ∀ (s : State) (rest : List Event) (idx : Nat) (v : Word), idx = 1 ∨ 4 ≤ idx →
    step (facing (.host (.write idx v)) rest s) = .next (taken rest s)

/-- 40_dispatch.md R135: an illegal command word gives ILLEGAL_CMD whatever the window is, and nothing else changes. -/
def Obligations.IllegalWordGivesIllegalCmd : Prop :=
  ∀ (s : State) (rest : List Event) (w : Word),
    w >>> 8 ≠ 0#32 ∨ w.setWidth 8 = 0x00#8 ∨ 0x08 ≤ (w.setWidth 8).toNat →
    step (facing (.host (.write 0 w)) rest s) = .next (ended (taken rest s) 0x13#8)

/-- A step runs the decoded command: when the host's next transaction writes CMD with a word that decodes to `i`, the step is
`exec i` once the transaction is off the queue (40_dispatch.md R134, R137). -/
def Obligations.StepRunsTheDecodedCommand : Prop :=
  ∀ (s : State) (rest : List Event) (w : Word) (i : Instr), decode w = .ok i →
    step (facing (.host (.write 0 w)) rest s) = exec i (taken rest s)

/-- With nothing pending the block is quiescent (70_reset_and_hazards.md R321); that the model has a step there at all, which
changes nothing, is its choice (log entry 5). -/
def Obligations.NothingPendingNothingHappens : Prop :=
  ∀ s : State, s.pending = [] → step s = .next s

/-- 30_encoding.md R91: words written out from the table decode to their commands. -/
def Obligations.TheSevenWordsDecode : Prop :=
  decode 0x00000001#32 = .ok .crc32 ∧ decode 0x00000002#32 = .ok .crcv ∧ decode 0x00000003#32 = .ok .vu32 ∧
  decode 0x00000004#32 = .ok .vu64 ∧ decode 0x00000005#32 = .ok .str ∧ decode 0x00000006#32 = .ok .dec ∧
  decode 0x00000007#32 = .ok .hdr

/-- 30_encoding.md R91, R92: a word selects a command exactly when the whole word is that command's; so decoding undoes
encoding, no two words decode to one command, and a word decodes exactly when it is well formed. -/
def Obligations.DecodeExactlyUndoesEncode : Prop :=
  (∀ i : Instr, i.wellFormed = true → decode (encode i) = .ok i) ∧
  (∀ (w : Word) (i : Instr), decode w = .ok i → w = encode i) ∧
  (∀ w : Word, (∃ i : Instr, decode w = .ok i) ↔ commandWordWellFormed w = true)

/-- 30_encoding.md R93: index idx is at byte address 4 * idx, 32 bits wide and aligned; decoding and encoding of host-bus
transfers agree, and a transfer decodes exactly when it is 32 bits wide and aligned (that others are rejected: log entry 12). -/
def Obligations.BusEncodingAgrees : Prop :=
  (∀ idx : Nat, decodeBus (.read (4 * idx) 4) = .ok (.read idx)) ∧
  (∀ (idx : Nat) (v : Word), decodeBus (.write (4 * idx) 4 v) = .ok (.write idx v)) ∧
  (∀ (a : BusAccess) (t : HostTxn), decodeBus a = .ok t ↔ encodeBus t = some a) ∧
  (∀ a : BusAccess, (∃ t : HostTxn, decodeBus a = .ok t) ↔ a.wellFormed = true)

/-- 40_dispatch.md R136: for every command an ill-formed window gives BAD_WINDOW, and nothing else changes; a valid window, an
empty one among them, gives it for no command but CRCV, which adds a condition of its own (41_crc.md R157). -/
def Obligations.BadWindowExactlyWhenIllFormed : Prop :=
  ∀ (i : Instr) (s : State),
    (¬ (s.regs.off.toNat ≤ s.regs.lim.toNat ∧ s.regs.lim.toNat ≤ s.buf.len.toNat) →
      exec i s = .next (ended s 0x12#8)) ∧
    (s.regs.off.toNat ≤ s.regs.lim.toNat → s.regs.lim.toNat ≤ s.buf.len.toNat → i ≠ .crcv →
      ∃ t : State, exec i s = .next t ∧ t.regs.status ≠ 0x12#32)

/-! ### Properties of the whole -/

/-- Totality (40_dispatch.md R142; 20_memory.md R69): from every state a step goes on, whatever command word is issued, and no
command reads outside the buffer; the step stops only on the two launches the model refuses by name (log entries 7, 8). -/
def Obligations.EveryStepGoesOnButRefusedLaunches : Prop :=
  ∀ s : State,
    (∃ t : State, step s = .next t) ∨
    (∃ (bytes : List Byte) (rest : List Event),
      s.pending = .attach bytes :: rest ∧ 2 ^ 32 ≤ bytes.length ∧ step s = .refused .bufferTooLong) ∨
    (∃ (w : Word) (rest : List Event),
      s.pending = .disturbed w :: rest ∧ step s = .refused .bufferChangedDuringCommand)

/-- Every command completes in every state (40_dispatch.md R142). -/
def Obligations.EveryCommandHasAPostState : Prop :=
  ∀ (i : Instr) (s : State), ∃ t : State, exec i s = .next t

/-- 60_exceptions.md R285 (and 40_dispatch.md R139): a command word, legal or not, that ends with an error outcome writes its
code to STATUS, zero-extended, and that is all; in particular a command does. -/
def Obligations.AnErrorChangesStatusOnly : Prop :=
  (∀ (w : Word) (s t : State), issueCommand w s = .next t → t.regs.status ≠ 0#32 →
    ∃ e : Err, t = { s with regs := { s.regs with status := e.code.setWidth 32 } }) ∧
  (∀ (i : Instr) (s t : State), exec i s = .next t → t.regs.status ≠ 0#32 →
    ∃ e : Err, t = { s with regs := { s.regs with status := e.code.setWidth 32 } })

/-- 70_reset_and_hazards.md R317: re-issuing a command that ended with an error gives the same error for ever. -/
def Obligations.AnErrorRepeats : Prop :=
  ∀ (i : Instr) (s t : State), exec i s = .next t → t.regs.status ≠ 0#32 → exec i t = .next t

/-- 60_exceptions.md R282: which command can end with which outcome, both ways, and an illegal word with ILLEGAL_CMD alone. -/
def Obligations.OutcomesOfEachCommand : Prop :=
  (∀ (i : Instr) (c : Byte),
    c ∈ outcomesOf i ↔ ∃ s t : State, exec i s = .next t ∧ t.regs.status = c.setWidth 32) ∧
  (∀ (i : Instr) (s t : State), exec i s = .next t → t.regs.status >>> 8 = 0#32) ∧
  (∀ (w : Word) (s : State), (∀ i : Instr, w ≠ encode i) →
    issueCommand w s = .next { s with regs := { s.regs with status := 0x13#32 } })

/-- The invariant (10_state.md R40 (a) to (c) and its later consequences) is kept by every step. -/
def Obligations.EveryStepKeepsTheInvariant : Prop :=
  ∀ s t : State, Inv s → step s = .next t → Inv t

/-- The invariant holds at reset. -/
def Obligations.TheInvariantHoldsAtReset : Prop := Inv State.reset

/-- 10_state.md R40 (d), (e), (f): what holds immediately after an OK outcome of HDR, STR and VU32. -/
def Obligations.ImmediatelyAfterOk : Prop :=
  ∀ s t : State, t.regs.status = 0#32 →
    (exec .hdr s = .next t →
      t.regs.hTag = s.magic ∧ 32 ≤ t.regs.hLen.toNat ∧
      t.regs.hLen.toNat ≤ s.regs.lim.toNat - s.regs.off.toNat ∧
      t.regs.payOff.toNat = s.regs.off.toNat + 28 ∧ t.regs.payOff.toNat ≤ t.regs.payLim.toNat ∧
      t.regs.payLim.toNat = s.regs.off.toNat + t.regs.hLen.toNat - 4 ∧
      t.regs.payLim.toNat + 4 ≤ s.regs.lim.toNat ∧ s.regs.lim.toNat ≤ s.buf.len.toNat) ∧
    (exec .str s = .next t →
      t.regs.strOff.toNat + t.regs.strLen.toNat = t.regs.off.toNat ∧ t.regs.off.toNat ≤ t.regs.lim.toNat) ∧
    (exec .vu32 s = .next t → t.regs.valHi = 0#32)

/-- 20_memory.md R61: whatever the host does, a step leaves every byte of the buffer, its length and MAGIC as they were; only
the environment's attaching of another buffer changes it. -/
def Obligations.NoTransactionWritesTheBuffer : Prop :=
  ∀ (s t : State) (h : HostTxn) (rest : List Event), step (facing (.host h) rest s) = .next t →
    t.buf = s.buf ∧ (∀ a : Nat, readByte t.buf a = readByte s.buf a) ∧ t.magic = s.magic ∧ t.pending = rest

/-- The frame of every command (10_state.md R21, column "written by the SFPU on"; R33): a register other than STATUS and those
listed for the command reads as before, and so does every byte of memory; the rest of the state is as before. -/
def Obligations.CommandFrame : Prop :=
  ∀ (i : Instr) (s t : State), exec i s = .next t →
    (∀ r : Reg, r ≠ .status → r ∉ writesOf i → readReg t r = readReg s r) ∧
    (∀ a : Nat, readByte t.buf a = readByte s.buf a) ∧
    t.buf = s.buf ∧ t.magic = s.magic ∧ t.pending = s.pending ∧ t.answers = s.answers

/-- How each command moves the cursor (10_state.md R34). -/
def Obligations.CursorMovement : Prop :=
  ∀ (i : Instr) (s t : State), exec i s = .next t →
    (t.regs.status ≠ 0#32 → t.regs.off = s.regs.off) ∧
    (t.regs.status = 0#32 →
      (i = .crc32 ∨ i = .crcv ∨ i = .hdr → t.regs.off = s.regs.off) ∧
      (i = .vu32 ∨ i = .vu64 ∨ i = .str ∨ i = .dec →
        s.regs.off.toNat < t.regs.off.toNat ∧ t.regs.off.toNat ≤ t.regs.lim.toNat) ∧
      (i = .vu32 → ∃ n, stopBitAt s.buf s.cursor n s.bound ∧ t.regs.off.toNat = s.regs.off.toNat + n) ∧
      (i = .vu64 → ∃ n m, stopBitAt s.buf s.cursor n s.bound ∧ stopBitAt s.buf (s.cursor + n) m s.bound ∧
        t.regs.off.toNat = s.regs.off.toNat + n + m) ∧
      (i = .str → ∃ p, (p = 1 ∨ p = 2) ∧
        t.regs.off.toNat = s.regs.off.toNat + p + t.regs.strLen.toNat) ∧
      (i = .dec → ∃ n, stopBitAt s.buf s.cursor n s.bound ∧ t.regs.off.toNat = s.regs.off.toNat + n + 1))

/-- A command depends on no byte outside what it may read (20_memory.md R69; 10_state.md R36): any other buffer of the same
length with the same bytes there gives the same outcome and the same results. -/
def Obligations.OnlyTheWindowMatters : Prop :=
  ∀ (i : Instr) (s t : State) (other : Buffer), other.len = s.buf.len →
    (∀ a : Nat, s.cursor ≤ a → a < readEnd i s → other.byteAt a = s.buf.byteAt a) →
    exec i s = .next t → exec i { s with buf := other } = .next { t with buf := other }

/-- A command depends on no register but OFF and LIM (10_state.md R36): not on STATUS, a result register or an earlier
command. -/
def Obligations.OnlyOffAndLimMatter : Prop :=
  ∀ (i : Instr) (s t : State) (r : Regs), r.off = s.regs.off → r.lim = s.regs.lim → exec i s = .next t →
    ∃ t' : State, exec i { s with regs := r } = .next t' ∧ t'.regs.status = t.regs.status ∧
      (t.regs.status = 0#32 → ∀ q ∈ writesOf i, readReg t' q = readReg t q) ∧
      (t.regs.status ≠ 0#32 → t' = { s with regs := { r with status := t.regs.status } })

/-! ### The checksum -/

/-- 41_crc.md R151, R152: the bit step and the byte step, and the equal bit-serial formulation, which takes the byte's bits
one by one from bit 0. -/
def Obligations.CrcByteStepIsBitSerial : Prop :=
  (∀ c : Word, crcBit c = if c &&& 1#32 = 1#32 then (c >>> 1) ^^^ 0xEDB88320#32 else c >>> 1) ∧
  (∀ (c : Word) (b : Byte), crcByte c b = crcBit^[8] (c ^^^ b.setWidth 32)) ∧
  (∀ (c : Word) (b : Byte), crcByte c b = crcSerial c b)

/-- 41_crc.md R159 (d), first part: crc_bit, and crc_byte for each byte, are bijections on 32-bit values. -/
def Obligations.CrcStepsAreBijections : Prop :=
  Function.Bijective crcBit ∧ ∀ b : Byte, Function.Bijective fun c : Word => crcByte c b

/-- 41_crc.md R159 (a), (b), (c): the empty range, the split of the raw register, and independence of where the bytes lie. -/
def Obligations.CrcRangeLaws : Prop :=
  (∀ (buf : Buffer) (a : Nat), crcRange buf a a = .ok 0#32) ∧
  (∀ (buf : Buffer) (c : Word) (a m l : Nat), a ≤ m → m ≤ l →
    crcRaw buf c a (l - a) = (crcRaw buf c a (m - a)).bind fun d => crcRaw buf d m (l - m)) ∧
  (∀ (buf other : Buffer) (a b n : Nat), a + n ≤ buf.len.toNat → b + n ≤ other.len.toNat →
    (∀ i < n, buf.byteAt (a + i) = other.byteAt (b + i)) → crcRange buf a (a + n) = crcRange other b (b + n))

/-- 41_crc.md R156: CRC32 always ends OK on a valid window, writes the checksum of the window's bytes to CRC and STATUS, and
nothing else; otherwise BAD_WINDOW. -/
def Obligations.Crc32ChecksumsTheWindow : Prop :=
  ∀ s : State,
    (s.windowValid →
      exec .crc32 s = .next { s with regs := { s.regs with crc := checksum (windowBytes s), status := 0#32 } }) ∧
    (¬ s.windowValid → exec .crc32 s = .next (ended s 0x12#8))

/-- 41_crc.md R157: what CRCV does on every window: it compares the window's checksum with the 4 little-endian bytes at LIM,
which must lie inside the buffer; an error changes STATUS only, so CRC keeps its earlier value. -/
def Obligations.CrcvComparesWithTheTrailer : Prop :=
  ∀ s : State,
    (¬ s.windowValid → exec .crcv s = .next (ended s 0x12#8)) ∧
    (s.windowValid →
      (s.buf.len.toNat < s.bound + 4 → exec .crcv s = .next (ended s 0x12#8)) ∧
      (s.bound + 4 ≤ s.buf.len.toNat → (checksum (windowBytes s)).toNat ≠ leSum s.buf s.bound 4 →
        exec .crcv s = .next (ended s 0x03#8)) ∧
      (s.bound + 4 ≤ s.buf.len.toNat → (checksum (windowBytes s)).toNat = leSum s.buf s.bound 4 →
        exec .crcv s = .next { s with regs := { s.regs with crc := checksum (windowBytes s), status := 0#32 } }))

/-- 41_crc.md R159 (d), R160: if CRCV ends OK and exactly one byte of the window is changed, in any of its bits, CRCV ends
CORRUPT. -/
def Obligations.OneChangedByteIsAlwaysDetected : Prop :=
  ∀ (s t : State) (other : Buffer) (a : Nat), exec .crcv s = .next t → t.regs.status = 0#32 →
    other.len = s.buf.len → s.cursor ≤ a → a < s.bound → other.byteAt a ≠ s.buf.byteAt a →
    (∀ x : Nat, x ≠ a → other.byteAt x = s.buf.byteAt x) →
    exec .crcv { s with buf := other } = .next (ended { s with buf := other } 0x03#8)

/-- The residue (95_test_vectors.md V5): when CRCV ends OK, CRC32 over the window and its 4 trailer bytes gives 0x2144DF1C. -/
def Obligations.ResidueOfAGoodFrame : Prop :=
  ∀ s t : State, exec .crcv s = .next t → t.regs.status = 0#32 →
    ∃ u : State, exec .crc32 { s with regs := { s.regs with lim := s.regs.lim + 4#32 } } = .next u ∧
      u.regs.status = 0#32 ∧ u.regs.crc = 0x2144DF1C#32

/-! ### Stop-bit integers -/

/-- 42_varint.md R171 (with dec_u32 of R170): what VU32 does on every window. On a stop-bit integer of n groups below 2^32
inside the window it delivers the value; a window that ends first gives FIELD_OVERRUN; five bytes with bit 7 set, or a value of
2^32 or more, VAR_RANGE; each error changes STATUS only. -/
def Obligations.Vu32OutcomeAndResult : Prop :=
  ∀ s : State,
    (¬ s.windowValid → exec .vu32 s = .next (ended s 0x12#8)) ∧
    (s.windowValid →
      (∀ n : Nat, stopBitAt s.buf s.cursor n s.bound → groupSum s.buf s.cursor n < 2 ^ 32 →
        exec .vu32 s = .next { s with regs := { s.regs with
          valLo := BitVec.ofNat 32 (groupSum s.buf s.cursor n), valHi := 0#32,
          off := BitVec.ofNat 32 (s.cursor + n), status := 0#32 } }) ∧
      (unfinishedAt s.buf s.cursor s.bound → exec .vu32 s = .next (ended s 0x05#8)) ∧
      (tooLongAt s.buf s.cursor s.bound → exec .vu32 s = .next (ended s 0x10#8)) ∧
      (∀ n : Nat, stopBitAt s.buf s.cursor n s.bound → 2 ^ 32 ≤ groupSum s.buf s.cursor n →
        exec .vu32 s = .next (ended s 0x10#8)))

/-- 42_varint.md R172: what VU64 does on every window. Two stop-bit integers, high half first; an error of either half, the
first half's first, changes STATUS only, so the cursor stays. -/
def Obligations.Vu64OutcomeAndResult : Prop :=
  ∀ s : State,
    (¬ s.windowValid → exec .vu64 s = .next (ended s 0x12#8)) ∧
    (s.windowValid →
      (unfinishedAt s.buf s.cursor s.bound → exec .vu64 s = .next (ended s 0x05#8)) ∧
      (tooLongAt s.buf s.cursor s.bound → exec .vu64 s = .next (ended s 0x10#8)) ∧
      (∀ n : Nat, stopBitAt s.buf s.cursor n s.bound →
        (2 ^ 32 ≤ groupSum s.buf s.cursor n → exec .vu64 s = .next (ended s 0x10#8)) ∧
        (groupSum s.buf s.cursor n < 2 ^ 32 →
          (unfinishedAt s.buf (s.cursor + n) s.bound → exec .vu64 s = .next (ended s 0x05#8)) ∧
          (tooLongAt s.buf (s.cursor + n) s.bound → exec .vu64 s = .next (ended s 0x10#8)) ∧
          (∀ m : Nat, stopBitAt s.buf (s.cursor + n) m s.bound →
            (2 ^ 32 ≤ groupSum s.buf (s.cursor + n) m → exec .vu64 s = .next (ended s 0x10#8)) ∧
            (groupSum s.buf (s.cursor + n) m < 2 ^ 32 →
              exec .vu64 s = .next { s with regs := { s.regs with
                valHi := BitVec.ofNat 32 (groupSum s.buf s.cursor n),
                valLo := BitVec.ofNat 32 (groupSum s.buf (s.cursor + n) m),
                off := BitVec.ofNat 32 (s.cursor + n + m), status := 0#32 } })))))

/-- 42_varint.md R173, R174: VU32 gives back every v below 2^32 from each of its spellings of at most 5 groups, and so from the
minimal one, whose length is `minGroups v`. -/
def Obligations.Vu32UndoesEverySpelling : Prop :=
  ∀ (s : State) (v : Nat), s.windowValid → v < 2 ^ 32 →
    (∀ n : Nat, 1 ≤ n → n ≤ 5 → v < 128 ^ n → standsAt s.buf s.cursor s.bound (spellGroups n v) →
      exec .vu32 s = .next { s with regs := { s.regs with
        valLo := BitVec.ofNat 32 v, valHi := 0#32, off := BitVec.ofNat 32 (s.cursor + n), status := 0#32 } }) ∧
    (1 ≤ minGroups v ∧ minGroups v ≤ 5 ∧ v < 128 ^ minGroups v ∧ ∀ n : Nat, 1 ≤ n → v < 128 ^ n → minGroups v ≤ n)

/-- 42_varint.md R173: VU64 gives back every v below 2^64 from the minimal spellings of its two halves. -/
def Obligations.Vu64UndoesTheMinimalSpelling : Prop :=
  ∀ (s : State) (v : Nat), s.windowValid → v < 2 ^ 64 →
    standsAt s.buf s.cursor s.bound
      (spellGroups (minGroups (v / 2 ^ 32)) (v / 2 ^ 32) ++ spellGroups (minGroups (v % 2 ^ 32)) (v % 2 ^ 32)) →
    ∃ t : State, exec .vu64 s = .next t ∧ t.regs.status = 0#32 ∧
      (t.regs.valHi ++ t.regs.valLo).toNat = v ∧
      t.regs.off.toNat = s.cursor + minGroups (v / 2 ^ 32) + minGroups (v % 2 ^ 32)

/-! ### Strings -/

/-- 43_string.md R192 (with dec_strlen of R191): what STR does on every window. With a one-byte and with a two-byte prefix it
delivers the slice; FIELD_OVERRUN when the window is empty, ends inside the prefix, or ends before the last content byte. -/
def Obligations.StrOutcomeAndResult : Prop :=
  ∀ s : State,
    (¬ s.windowValid → exec .str s = .next (ended s 0x12#8)) ∧
    (s.windowValid →
      (s.cursor < s.bound → ¬ moreAt s.buf s.cursor →
        s.cursor + 1 + (s.buf.byteAt s.cursor).toNat ≤ s.bound →
        exec .str s = .next { s with regs := { s.regs with
          strOff := BitVec.ofNat 32 (s.cursor + 1), strLen := BitVec.ofNat 32 (s.buf.byteAt s.cursor).toNat,
          off := BitVec.ofNat 32 (s.cursor + 1 + (s.buf.byteAt s.cursor).toNat), status := 0#32 } }) ∧
      (∀ len : Nat, s.cursor + 1 < s.bound → moreAt s.buf s.cursor →
        len = ((s.buf.byteAt s.cursor).toNat - 128) * 256 + (s.buf.byteAt (s.cursor + 1)).toNat →
        s.cursor + 2 + len ≤ s.bound →
        exec .str s = .next { s with regs := { s.regs with
          strOff := BitVec.ofNat 32 (s.cursor + 2), strLen := BitVec.ofNat 32 len,
          off := BitVec.ofNat 32 (s.cursor + 2 + len), status := 0#32 } }) ∧
      (s.cursor = s.bound → exec .str s = .next (ended s 0x05#8)) ∧
      (s.cursor + 1 = s.bound → moreAt s.buf s.cursor → exec .str s = .next (ended s 0x05#8)) ∧
      (s.cursor < s.bound → ¬ moreAt s.buf s.cursor →
        s.bound < s.cursor + 1 + (s.buf.byteAt s.cursor).toNat → exec .str s = .next (ended s 0x05#8)) ∧
      (s.cursor + 1 < s.bound → moreAt s.buf s.cursor →
        s.bound < s.cursor + 2 + (((s.buf.byteAt s.cursor).toNat - 128) * 256 + (s.buf.byteAt (s.cursor + 1)).toNat) →
        exec .str s = .next (ended s 0x05#8)))

/-- STR gives back every length up to 32767 from the prefix an encoder writes (30_encoding.md R110; 43_string.md R191). -/
def Obligations.StrUndoesThePrefix : Prop :=
  ∀ (s : State) (len : Nat), s.windowValid → len ≤ 32767 → standsAt s.buf s.cursor s.bound (spellStrLen len) →
    s.cursor + (spellStrLen len).length + len ≤ s.bound →
    ∃ t : State, exec .str s = .next t ∧ t.regs.status = 0#32 ∧ t.regs.strLen.toNat = len ∧
      t.regs.strOff.toNat = s.cursor + (spellStrLen len).length ∧
      t.regs.off.toNat = s.cursor + (spellStrLen len).length + len

/-! ### Decimals -/

/-- 44_decimal.md R207 (with dec_s32 of R206): what DEC does on every window. A mantissa of n groups that fits 32-bit two's
complement, and an exponent byte; the mantissa's errors are met before the exponent is looked at. -/
def Obligations.DecOutcomeAndResult : Prop :=
  ∀ s : State,
    (¬ s.windowValid → exec .dec s = .next (ended s 0x12#8)) ∧
    (s.windowValid →
      (unfinishedAt s.buf s.cursor s.bound → exec .dec s = .next (ended s 0x05#8)) ∧
      (tooLongAt s.buf s.cursor s.bound → exec .dec s = .next (ended s 0x10#8)) ∧
      (∀ n : Nat, stopBitAt s.buf s.cursor n s.bound →
        (signedSum s.buf s.cursor n < -2 ^ 31 ∨ 2 ^ 31 - 1 < signedSum s.buf s.cursor n →
          exec .dec s = .next (ended s 0x10#8)) ∧
        (-2 ^ 31 ≤ signedSum s.buf s.cursor n → signedSum s.buf s.cursor n ≤ 2 ^ 31 - 1 →
          (s.cursor + n = s.bound → exec .dec s = .next (ended s 0x05#8)) ∧
          (s.cursor + n < s.bound →
            exec .dec s = .next { s with regs := { s.regs with
              mant := BitVec.ofInt 32 (signedSum s.buf s.cursor n),
              exp := (s.buf.byteAt (s.cursor + n)).signExtend 32,
              off := BitVec.ofNat 32 (s.cursor + n + 1), status := 0#32 } }))))

/-- DEC gives back the number m * 10^e (44_decimal.md R208, R211), for every 32-bit m in each of its signed spellings of at
most 5 groups (R206) and every exponent byte. -/
def Obligations.DecUndoesEverySpelling : Prop :=
  ∀ (s : State) (m : Int) (n : Nat) (e : Byte), s.windowValid → -2 ^ 31 ≤ m → m ≤ 2 ^ 31 - 1 → 1 ≤ n → n ≤ 5 →
    -64 * 128 ^ (n - 1) ≤ m → m < 64 * 128 ^ (n - 1) →
    standsAt s.buf s.cursor s.bound (spellSigned n m ++ [e]) →
    ∃ t : State, exec .dec s = .next t ∧ t.regs.status = 0#32 ∧ t.regs.mant.toInt = m ∧ t.regs.exp.toInt = e.toInt ∧
      t.regs.off.toNat = s.cursor + n + 1 ∧
      ((t.regs.mant.toInt : ℚ) * 10 ^ t.regs.exp.toInt = (m : ℚ) * 10 ^ e.toInt)

/-! ### The frame header -/

/-- 45_header.md R225, R226, R228: what HDR does on every window: its checks in their order, each error changing STATUS only,
and on a frame that passes them the eleven registers. -/
def Obligations.HdrOutcomeAndResult : Prop :=
  ∀ s : State,
    (¬ s.windowValid → exec .hdr s = .next (ended s 0x12#8)) ∧
    (s.windowValid →
      (s.bound - s.cursor < 28 → exec .hdr s = .next (ended s 0x02#8)) ∧
      (28 ≤ s.bound - s.cursor → leSum s.buf s.cursor 4 ≠ s.magic.toNat → exec .hdr s = .next (ended s 0x01#8)) ∧
      (28 ≤ s.bound - s.cursor → leSum s.buf s.cursor 4 = s.magic.toNat → leSum s.buf (s.cursor + 8) 4 < 32 →
        exec .hdr s = .next (ended s 0x11#8)) ∧
      (28 ≤ s.bound - s.cursor → leSum s.buf s.cursor 4 = s.magic.toNat → 32 ≤ leSum s.buf (s.cursor + 8) 4 →
        s.bound - s.cursor < leSum s.buf (s.cursor + 8) 4 → exec .hdr s = .next (ended s 0x02#8)) ∧
      (28 ≤ s.bound - s.cursor → leSum s.buf s.cursor 4 = s.magic.toNat → 32 ≤ leSum s.buf (s.cursor + 8) 4 →
        leSum s.buf (s.cursor + 8) 4 ≤ s.bound - s.cursor →
        exec .hdr s = .next { s with regs := { s.regs with
          hTag := s.magic
          hType := BitVec.ofNat 32 (leSum s.buf (s.cursor + 4) 4)
          hLen := BitVec.ofNat 32 (leSum s.buf (s.cursor + 8) 4)
          hTsLo := BitVec.ofNat 32 (leSum s.buf (s.cursor + 12) 4)
          hTsHi := BitVec.ofNat 32 (leSum s.buf (s.cursor + 16) 4)
          hSeq := BitVec.ofNat 32 (leSum s.buf (s.cursor + 20) 4)
          hVer := BitVec.ofNat 32 (leSum s.buf (s.cursor + 24) 2)
          hFlags := BitVec.ofNat 32 (s.buf.byteAt (s.cursor + 26)).toNat
          hRsvd := BitVec.ofNat 32 (s.buf.byteAt (s.cursor + 27)).toNat
          payOff := BitVec.ofNat 32 (s.cursor + 28)
          payLim := BitVec.ofNat 32 (s.cursor + leSum s.buf (s.cursor + 8) 4 - 4)
          status := 0#32 } }))

/-- HDR gives back every header an encoder lays out with MAGIC and a length that fits (30_encoding.md R100, R101; 45_header.md
R226, R231): no bit of any field is dropped, whatever version, flags and reserved are. -/
def Obligations.HdrUndoesTheLayout : Prop :=
  ∀ (s : State) (h : HeaderFields), s.windowValid → standsAt s.buf s.cursor s.bound (headerBytes h) →
    h.startTag = s.magic → 32 ≤ h.msgLength.toNat → h.msgLength.toNat ≤ s.bound - s.cursor →
    exec .hdr s = .next { s with regs := { s.regs with
      hTag := h.startTag, hType := h.msgType, hLen := h.msgLength,
      hTsLo := h.timestamp.setWidth 32, hTsHi := (h.timestamp >>> 32).setWidth 32,
      hSeq := h.seqNum, hVer := h.version.setWidth 32, hFlags := h.flags.setWidth 32, hRsvd := h.reserved.setWidth 32,
      payOff := BitVec.ofNat 32 (s.cursor + 28), payLim := BitVec.ofNat 32 (s.cursor + h.msgLength.toNat - 4),
      status := 0#32 } }

/-- `decode_frame` as a command sequence (45_header.md R230): after HDR ended OK, LIM set to PAY_LIM and CRCV end OK when the
trailer agrees with the bytes of the frame before it, and CORRUPT when it does not; never BAD_WINDOW. -/
def Obligations.HdrThenCrcvVerifiesTheFrame : Prop :=
  ∀ s t : State, exec .hdr s = .next t → t.regs.status = 0#32 →
    ∃ u : State, exec .crcv { t with regs := { t.regs with lim := t.regs.payLim } } = .next u ∧
      (u.regs.status = 0#32 ∨ u.regs.status = 0x03#32) ∧
      (u.regs.status = 0#32 ↔
        (checksum ((List.range (t.regs.hLen.toNat - 4)).map fun i => s.buf.byteAt (s.cursor + i))).toNat =
          leSum s.buf (s.cursor + t.regs.hLen.toNat - 4) 4)

/-! ### The buffer, the script, several instances -/

/-- 20_memory.md R63: MemRead(a, n) is the little-endian value of the n bytes at a, wherever they lie (R66). -/
def Obligations.MemReadIsLittleEndian : Prop :=
  ∀ (buf : Buffer) (a n : Nat), a + n ≤ buf.len.toNat → memRead buf a n = .ok (leSum buf a n)

/-- After the environment has attached another buffer, BUFLEN and every read see it entirely, and no register has changed
(10_state.md R26; 20_memory.md R75; the attach event is log entry 7). The last clause, that a read at or beyond BUF_LEN is the
fault `outsideBuffer`, is the model's and no rule's (log entry 10: DEDUCED). -/
def Obligations.AttachedBufferIsSeenEntirely : Prop :=
  ∀ (s : State) (bytes : List Byte) (rest : List Event), bytes.length < 2 ^ 32 →
    ∃ t : State, step (facing (.attach bytes) rest s) = .next t ∧
      t = { s with buf := t.buf, pending := rest } ∧ (readReg t .buflen).toNat = bytes.length ∧ t.buf.wf = true ∧
      (∀ i < bytes.length, readByte t.buf i = .ok (bytes.getD i 0)) ∧
      ∀ a : Nat, bytes.length ≤ a → readByte t.buf a = .fault (.outsideBuffer a)

/-- 20_memory.md R70: a launch in which the buffer is written during a command is refused; and so, by 92_eei_decisions.md D3,
is a buffer of 2^32 bytes or more. -/
def Obligations.LaunchesOutsideTheModelAreRefused : Prop :=
  ∀ (s : State) (rest : List Event),
    (∀ w : Word, step (facing (.disturbed w) rest s) = .refused .bufferChangedDuringCommand) ∧
    (∀ bytes : List Byte, 2 ^ 32 ≤ bytes.length → step (facing (.attach bytes) rest s) = .refused .bufferTooLong)

/-- The expansions of the script's pseudo-instructions do what their "use" column says (30_encoding.md R119): the window they
leave, and nothing else of the registers (the script's expressions are log entry 13). -/
def Obligations.PseudoInstructionsMoveTheWindow : Prop :=
  ∀ h : ScriptState,
    (∀ a b : Word, ∃ h' : ScriptState, runLines (expandPseudo (.window (.const a) (.const b))) h = .next h' ∧
      h'.sfpu = { h.sfpu with regs := { h.sfpu.regs with off := a, lim := b } }) ∧
    (∀ (d : SetReg) (r : Reg), ∃ h' : ScriptState, runLines (expandPseudo (.mov d r)) h = .next h' ∧
      h'.sfpu.regs = (match d with
        | .off => { h.sfpu.regs with off := readReg h.sfpu r }
        | .lim => { h.sfpu.regs with lim := readReg h.sfpu r })) ∧
    (∃ h' : ScriptState, runLines (expandPseudo .enter) h = .next h' ∧
      h'.sfpu.regs = { h.sfpu.regs with off := h.sfpu.regs.payOff, lim := h.sfpu.regs.payLim }) ∧
    (∀ n : Word, ∃ h' : ScriptState, runLines (expandPseudo (.skip (.const n))) h = .next h' ∧
      h'.sfpu.regs = { h.sfpu.regs with off := h.sfpu.regs.off + n }) ∧
    (∃ h' : ScriptState, runLines (expandPseudo .check) h = .next h' ∧
      exec .crcv { h.sfpu with
        regs := { h.sfpu.regs with lim := h.sfpu.regs.payLim },
        answers := h.sfpu.regs.payLim :: h.sfpu.answers } = .next h'.sfpu) ∧
    (∀ f : Word, ∃ h' : ScriptState, runLines (expandPseudo (.next (.const f))) h = .next h' ∧
      h'.sfpu.regs = { h.sfpu.regs with off := f + h.sfpu.regs.hLen, lim := h.sfpu.buf.len })

/-- Several instances on one buffer cannot observe one another (20_memory.md R74; 60_exceptions.md R288): while their hosts
only read, write and reset, any two interleavings of the same numbers of steps leave the same end state (log entry 14). -/
def Obligations.InterleavingOfInstancesDoesNotMatter : Prop :=
  ∀ (sys : System) (σ τ : List Nat), σ.Perm τ → (∀ k ∈ σ, k < sys.units.length) →
    (∀ u ∈ sys.units, ∀ e ∈ u.pending, ∃ t : HostTxn, e = .host t) →
    runSchedule σ sys = runSchedule τ sys ∧ ∃ sys' : System, runSchedule σ sys = .next sys' ∧ sys'.buf = sys.buf

/-! ### One iteration of a worker's loop -/

/-- 50_system_context.md R268 (2) to (5): what comes of a candidate offset, step by step, and the first failing step decides.
The fields are decoded from PAY_OFF + 2 with LIM = PAY_LIM. The buffer is as before. What the iteration takes as arguments, and which
fields a presence map states, are the model's choices (log entries 17 and 15). -/
def Obligations.AttemptFollowsTheSteps : Prop :=
  ∀ (id : Byte) (s : State) (c : Word), c.toNat ≤ s.buf.len.toNat →
    ∃ (v : Verdict) (t : State), attempt id c s = .next (v, t) ∧ t.buf = s.buf ∧
      (s.buf.len.toNat - c.toNat < 28 → v = .rejected .truncated) ∧
      (28 ≤ s.buf.len.toNat - c.toNat →
        (leSum s.buf c.toNat 4 ≠ s.magic.toNat → v = .noMarker) ∧
        (leSum s.buf c.toNat 4 = s.magic.toNat →
          (lengthAt s.buf c.toNat < 32 → v = .rejected .badLength) ∧
          (32 ≤ lengthAt s.buf c.toNat →
            (s.buf.len.toNat - c.toNat < lengthAt s.buf c.toNat → v = .rejected .truncated) ∧
            (lengthAt s.buf c.toNat ≤ s.buf.len.toNat - c.toNat →
              (¬ trailerAgrees s.buf c.toNat → v = .rejected .corrupt) ∧
              (trailerAgrees s.buf c.toNat →
                (s.buf.byteAt (c.toNat + 28) ≠ id → v = .rejected .unsupportedTemplate) ∧
                (s.buf.byteAt (c.toNat + 28) = id →
                  ∃ (u : State) (r : Except Err (List DecodedField)),
                    u.buf = s.buf ∧ u.regs.off.toNat = c.toNat + 30 ∧
                    u.regs.lim.toNat = c.toNat + lengthAt s.buf c.toNat - 4 ∧
                    u.regs.hLen.toNat = lengthAt s.buf c.toNat ∧
                    decodeFields (presentFields (s.buf.byteAt (c.toNat + 29))) u = .next (r, t) ∧
                    ((∃ fields, r = .ok fields ∧ v = .accepted fields) ∨
                      ∃ e, r = .error e ∧ v = .rejected e)))))))

/-- 50_system_context.md R268 (5): each field is decoded by its command and its result registers are read after it; an error
outcome ends the fields. From a valid window the fields end with all of them, the cursor moved by at least a byte for each and
not past LIM, or with FIELD_OVERRUN or VAR_RANGE. The read of STATUS after each command is log entry 17. -/
def Obligations.FieldsAreDecodedInOrder : Prop :=
  (∀ (f : TemplateField) (fs : List TemplateField) (s t : State), exec (wireCommand f.wire) s = .next t →
    (t.regs.status = 0#32 → ∃ u : State, u.regs = t.regs ∧ u.buf = s.buf ∧
      decodeFields (f :: fs) s = andThen (decodeFields fs u) fun (r, w) =>
        .next (r.map (⟨f, (resultRegs f.wire).map (readReg t)⟩ :: ·), w)) ∧
    (∀ e : Err, t.regs.status = e.code.setWidth 32 → ∃ u : State, u.regs = t.regs ∧
      decodeFields (f :: fs) s = .next (.error e, u))) ∧
  (∀ (fs : List TemplateField) (s : State), s.windowValid →
    ∃ (r : Except Err (List DecodedField)) (t : State), decodeFields fs s = .next (r, t) ∧ t.buf = s.buf ∧
      t.regs.lim = s.regs.lim ∧
      (∀ l, r = .ok l → l.map (·.field) = fs ∧ s.regs.off.toNat + fs.length ≤ t.regs.off.toNat ∧
        t.regs.off.toNat ≤ t.regs.lim.toNat) ∧
      (∀ e, r = .error e → e = .fieldOverrun ∨ e = .varRange))

/-- One iteration never stops, and leaves the buffer, MAGIC and what else is pending as they were ("None of these steps needs
anything from the SFPU beyond the seven commands", 50_system_context.md R268; 40_dispatch.md R142). Its arguments are log entry 17. -/
def Obligations.WorkerIterationCompletes : Prop :=
  ∀ (how : SearchBy) (id : Byte) (policy : Err → Word → Regs → Word) (c e : Word) (s : State),
    ∃ (it : Iteration) (t : State), workerIteration how id policy c e s = .next (it, t) ∧
      t.buf = s.buf ∧ t.magic = s.magic ∧ t.pending = s.pending

/-- 50_system_context.md R268: an iteration tries the first marker from the cursor on, whichever way the host searches. If the
frame there is good the cursor moves to its end, if it is rejected to where the policy says; if no marker stands 28 bytes or
more before the assigned end (90_conflicts.md C8) the loop is done. Arguments and last candidate: log entry 17. -/
def Obligations.WorkerIterationTriesTheFirstMarker : Prop :=
  ∀ (how : SearchBy) (id : Byte) (policy : Err → Word → Regs → Word) (c e : Word) (s : State),
    e.toNat ≤ s.buf.len.toNat →
    ((∀ a : Nat, ¬ firstMarker s c.toNat e.toNat a) ∧ ∃ t, workerIteration how id policy c e s = .next (.done, t)) ∨
    ∃ (a : Word) (u : State), firstMarker s c.toNat e.toNat a.toNat ∧
      ((∃ err t, attempt id a s = .next (.rejected err, u) ∧ t.regs = u.regs ∧
          workerIteration how id policy c e s = .next (.rejected a err (policy err a u.regs), t)) ∨
        ∃ fields cursor t, attempt id a s = .next (.accepted fields, u) ∧ t.regs = u.regs ∧
          workerIteration how id policy c e s = .next (.accepted a fields cursor, t) ∧
          cursor.toNat = a.toNat + lengthAt s.buf a.toNat ∧ a.toNat + 32 ≤ cursor.toNat ∧
          cursor.toNat ≤ s.buf.len.toNat)
end

