-- ==== Sys2Proof/Laws/Decode.lean ====
section
/-! SUPPORT. The decoder on the table's words and the table's bits. -/

namespace Sys2Proof

/-- The opcode of a command is its word's low byte and its other bits are zero. -/
theorem encode_fields (i : Instr) : zeroField (encode i) = 0#24 ∧ decodeOpcode (opcodeField (encode i)) = .ok i := by
  cases i <;> decide

/-- A word is its two fields. -/
theorem word_of_fields (w : Word) : w = (zeroField w ++ opcodeField w : BitVec 32) := by
  apply BitVec.eq_of_getLsbD_eq
  intro i hi
  simp only [zeroField, opcodeField, BitVec.getLsbD_append, BitVec.getLsbD_extractLsb']
  by_cases h : i < 8
  · simp [h]
  · simp only [h, decide_false]
    rw [show 8 + (i - 8) = i by omega]
    simp [show i - 8 < 24 by omega]

end Sys2Proof
end

