-- ==== Sys2Proof/Laws/Memory.lean ====
section
/-! SUPPORT. The buffer: every operation that makes a memory makes it in canonical form, and the reads of a buffer in its
bounds succeed. -/

namespace Sys2Proof.Machine

/-- The bytes of an attached buffer are in canonical form. -/
theorem wfFrom_ofBytes (bytes : List Byte) : ∀ a lo : Nat, lo ≤ a → Memory.wfFrom lo (Memory.ofBytes a bytes) = true := by
  induction bytes with
  | nil => intro a lo _; rfl
  | cons b bs ih =>
    intro a lo h
    unfold Memory.ofBytes
    split
    · exact ih _ _ (by omega)
    · next hb => simp [Memory.wfFrom, h, hb, ih]

/-- An attached buffer lists only offsets inside it. -/
theorem ofBytes_offsets (bytes : List Byte) : ∀ a : Nat, ∀ c ∈ Memory.ofBytes a bytes, a ≤ c.1 ∧ c.1 < a + bytes.length := by
  induction bytes with
  | nil => intro a c hc; simp [Memory.ofBytes] at hc
  | cons b bs ih =>
    intro a c hc
    unfold Memory.ofBytes at hc
    have tail : c ∈ Memory.ofBytes (a + 1) bs → a ≤ c.1 ∧ c.1 < a + (b :: bs).length := by
      intro h
      have := ih _ _ h
      simp only [List.length_cons]
      omega
    split at hc
    · exact tail hc
    · rcases List.mem_cons.mp hc with h | h
      · subst h; simp
      · exact tail h

/-- Reading an attached buffer below its first offset gives the unlisted byte. -/
theorem read_ofBytes_below (bytes : List Byte) : ∀ a x : Nat, x < a → Memory.read (Memory.ofBytes a bytes) x = Config.unlistedByte := by
  induction bytes with
  | nil => intro a x _; rfl
  | cons b bs ih =>
    intro a x h
    unfold Memory.ofBytes
    split
    · exact ih _ _ (by omega)
    · rw [Memory.read, if_neg (by omega)]
      exact ih _ _ (by omega)

/-- Reading an attached buffer gives the byte attached at that place. -/
theorem read_ofBytes (bytes : List Byte) : ∀ a i : Nat, Memory.read (Memory.ofBytes a bytes) (a + i) = bytes.getD i Config.unlistedByte := by
  induction bytes with
  | nil => intro a i; rfl
  | cons b bs ih =>
    intro a i
    unfold Memory.ofBytes
    cases i with
    | zero =>
      split
      · next hb => rw [read_ofBytes_below bs (a + 1) (a + 0) (by omega)]; simp [hb]
      · simp [Memory.read]
    | succ i =>
      have ih' := ih (a + 1) i
      rw [show a + 1 + i = a + (i + 1) by omega] at ih'
      split
      · simpa using ih'
      · rw [Memory.read, if_neg (by omega)]
        simpa using ih'

/-- A buffer attached whole, of a length BUF_LEN can state, is well formed. -/
theorem Buffer.ofBytes_wf (bytes : List Byte) (h : bytes.length < 2 ^ 32) : (Buffer.ofBytes bytes).wf = true := by
  simp only [Buffer.wf, Buffer.ofBytes, Memory.wf, wfFrom_ofBytes bytes 0 0 (Nat.le_refl 0), Bool.true_and, List.all_eq_true,
    decide_eq_true_eq, BitVec.toNat_ofNat]
  intro c hc
  have := ofBytes_offsets bytes 0 c hc
  rw [Nat.mod_eq_of_lt h]
  omega

/-- The buffer of the reset state is well formed. -/
theorem reset_buf_wf : State.reset.buf.wf = true := rfl

/-- A read below BUF_LEN gives BUF[a]. -/
theorem readByte_of_lt {buf : Buffer} {a : Nat} (h : a < buf.len.toNat) : readByte buf a = .ok (buf.byteAt a) := by
  simp [readByte, h]

/-- A read at or beyond BUF_LEN is a fault. -/
theorem readByte_of_ge {buf : Buffer} {a : Nat} (h : buf.len.toNat ≤ a) : readByte buf a = .fault (.outsideBuffer a) := by
  simp [readByte, Nat.not_lt.mpr h]

/-- MemRead takes the low byte first. -/
theorem memRead_succ_of_lt {buf : Buffer} {a : Nat} (n : Nat) (h : a < buf.len.toNat) :
    memRead buf a (n + 1) = (memRead buf (a + 1) n).bind fun rest => .ok ((buf.byteAt a).toNat + 256 * rest) := by
  simp [memRead, readByte_of_lt h, Res.bind]

/-- MemRead inside the buffer ends with a value of its width. -/
theorem memRead_ok (buf : Buffer) (n : Nat) : ∀ a : Nat, a + n ≤ buf.len.toNat → ∃ v, memRead buf a n = .ok v ∧ v < 256 ^ n := by
  induction n with
  | zero => intro a _; exact ⟨0, rfl, by simp⟩
  | succ n ih =>
    intro a h
    obtain ⟨v, hv, hlt⟩ := ih (a + 1) (by omega)
    refine ⟨(buf.byteAt a).toNat + 256 * v, ?_, ?_⟩
    · rw [memRead_succ_of_lt n (by omega), hv]; rfl
    · have := (buf.byteAt a).isLt
      rw [pow_succ]
      omega

end Sys2Proof.Machine
end

