-- ==== Sys2Proof/Laws/Ops.lean ====
section
/-! SUPPORT. What each shared operation can do, once: how a part of a command ends, how a command ends, what the group loop
and the prefix decoder answer. -/

namespace Sys2Proof.Machine

/-! ### Res -/

@[simp] theorem Res.bind_ok {α β : Type} (a : α) (k : α → Res β) : (Res.ok a).bind k = k a := rfl
@[simp] theorem Res.bind_raise {α β : Type} (e : Err) (k : α → Res β) : (Res.raise e : Res α).bind k = .raise e := rfl
@[simp] theorem Res.bind_fault {α β : Type} (f : Fault) (k : α → Res β) : (Res.fault f : Res α).bind k = .fault f := rfl

/-- A sequence ends with a value only if both parts do. -/
theorem Res.bind_eq_ok {α β : Type} {r : Res α} {k : α → Res β} {b : β} (h : r.bind k = .ok b) :
    ∃ a, r = .ok a ∧ k a = .ok b := by
  cases r with
  | ok a => exact ⟨a, rfl, h⟩
  | raise e => simp at h
  | fault f => simp at h

/-- A sequence raises when a part does. -/
theorem Res.bind_eq_raise {α β : Type} {r : Res α} {k : α → Res β} {e : Err} (h : r.bind k = .raise e) :
    r = .raise e ∨ ∃ a, r = .ok a ∧ k a = .raise e := by
  cases r with
  | ok a => exact .inr ⟨a, rfl, h⟩
  | raise e' => simp at h; exact .inl (by rw [h])
  | fault f => simp at h

/-- A part that does not fault. -/
def Res.clean {α : Type} : Res α → Prop
  | .ok _ => True
  | .raise _ => True
  | .fault _ => False

@[simp] theorem Res.clean_ok {α : Type} (a : α) : (Res.ok a).clean := trivial
@[simp] theorem Res.clean_raise {α : Type} (e : Err) : (Res.raise e : Res α).clean := trivial

/-- A sequence of parts that do not fault does not fault. -/
theorem Res.clean_bind {α β : Type} {r : Res α} {k : α → Res β} (hr : r.clean) (hk : ∀ a, r = .ok a → (k a).clean) :
    (r.bind k).clean := by
  cases r with
  | ok a => exact hk a rfl
  | raise e => trivial
  | fault f => exact hr.elim

theorem readByte_clean {buf : Buffer} {a : Nat} (h : a < buf.len.toNat) : (readByte buf a).clean := by
  simp [readByte_of_lt h]

theorem memRead_clean {buf : Buffer} {a n : Nat} (h : a + n ≤ buf.len.toNat) : (memRead buf a n).clean := by
  obtain ⟨v, hv, -⟩ := memRead_ok buf n a h
  simp [hv]

/-! ### The end of a command -/

/-- What a command can answer when it answers a next state (40_dispatch.md R134, R136, R138, R139). -/
theorem runCommand_next {body : State → Res Regs} {s t : State} (h : runCommand body s = .next t) :
    (¬ s.windowValid ∧ t = raiseOutcome .badWindow s) ∨
    (s.windowValid ∧ ∃ r, body s = .ok r ∧ t = finishOk r s) ∨
    (s.windowValid ∧ ∃ e, body s = .raise e ∧ t = raiseOutcome e s) := by
  unfold runCommand at h
  split at h
  · next hw =>
    unfold endCommand at h
    split at h
    · next r hr => cases h; exact .inr (.inl ⟨hw, r, hr, rfl⟩)
    · next e he => cases h; exact .inr (.inr ⟨hw, e, he, rfl⟩)
    · cases h
  · next hw => cases h; exact .inl ⟨hw, rfl⟩

/-- A command whose body does not fault answers a next state. -/
theorem runCommand_of_clean {body : State → Res Regs} {s : State} (h : s.windowValid → (body s).clean) :
    ∃ t, runCommand body s = .next t := by
  unfold runCommand
  split
  · next hw =>
    have hc := h hw
    unfold endCommand
    split
    · exact ⟨_, rfl⟩
    · exact ⟨_, rfl⟩
    · next f hf => rw [hf] at hc; exact hc.elim
  · exact ⟨_, rfl⟩

/-- A command whose body delivers registers. -/
theorem runCommand_ok {body : State → Res Regs} {s : State} {r : Regs} (hw : s.windowValid) (h : body s = .ok r) :
    runCommand body s = .next (finishOk r s) := by
  simp only [runCommand, if_pos hw, endCommand, h]

/-- A command whose body raises an error outcome. -/
theorem runCommand_raise {body : State → Res Regs} {s : State} {e : Err} (hw : s.windowValid) (h : body s = .raise e) :
    runCommand body s = .next (raiseOutcome e s) := by
  simp only [runCommand, if_pos hw, endCommand, h]

/-- A command on an ill-formed window. -/
theorem runCommand_badWindow {body : State → Res Regs} {s : State} (hw : ¬ s.windowValid) :
    runCommand body s = .next (raiseOutcome .badWindow s) := by
  simp only [runCommand, if_neg hw]

/-- The status word OK is 0. -/
@[simp] theorem statusWord_ok : statusWord okCode = 0#32 := rfl

/-- No error outcome has code OK. -/
theorem statusWord_err_ne (e : Err) : statusWord e.code ≠ 0#32 := by cases e <;> decide

/-! ### The checksum -/

/-- The raw register over a range inside the buffer. -/
theorem crcRaw_ok (buf : Buffer) (n : Nat) : ∀ (c : Word) (a : Nat), a + n ≤ buf.len.toNat → ∃ d, crcRaw buf c a n = .ok d := by
  induction n with
  | zero => intro c a _; exact ⟨c, rfl⟩
  | succ n ih =>
    intro c a h
    obtain ⟨d, hd⟩ := ih (crcByte c (buf.byteAt a)) (a + 1) (by omega)
    exact ⟨d, by simp [crcRaw, readByte_of_lt (show a < buf.len.toNat by omega), hd]⟩

theorem crcRange_clean {buf : Buffer} {a l : Nat} (h : a ≤ l) (hl : l ≤ buf.len.toNat) : (crcRange buf a l).clean := by
  obtain ⟨d, hd⟩ := crcRaw_ok buf (l - a) Config.crcInit a (by omega)
  simp [crcRange, hd]

/-! ### Stop-bit integers -/

/-- The group loop does not fault when its bound lies inside the buffer. -/
theorem groupLoop_clean {buf : Buffer} {lim : Nat} (hl : lim ≤ buf.len.toNat) :
    ∀ (left : Nat) (g : Groups), (groupLoop buf lim left g).clean := by
  intro left
  induction left with
  | zero => intro g; trivial
  | succ left ih =>
    intro g
    unfold groupLoop
    split
    · trivial
    · rw [readByte_of_lt (by omega), Res.bind_ok]
      split
      · exact ih _
      · trivial

/-- Where the group loop ends: at least one group further, at most `left` of them, and not past the bound. -/
theorem groupLoop_ok {buf : Buffer} {lim : Nat} :
    ∀ (left : Nat) (g g' : Groups), groupLoop buf lim left g = .ok g' →
      g.next < g'.next ∧ g'.next ≤ g.next + left ∧ g'.next ≤ lim ∧ g'.count + g.next = g.count + g'.next := by
  intro left
  induction left with
  | zero => intro g g' h; simp [groupLoop] at h
  | succ left ih =>
    intro g g' h
    unfold groupLoop at h
    split at h
    · simp at h
    · next hlt =>
      obtain ⟨b, -, hb⟩ := Res.bind_eq_ok h
      split at hb
      · have := ih _ _ hb
        simp only at this
        omega
      · cases hb
        simp only
        omega

theorem decU32_clean {buf : Buffer} {a lim : Nat} (hl : lim ≤ buf.len.toNat) : (decU32 buf a lim).clean := by
  unfold decU32
  refine Res.clean_bind (groupLoop_clean hl _ _) ?_
  intro g _
  split <;> trivial

/-- dec_u32 yields a value below 2^32 and an offset after `a` that is not past the bound (42_varint.md R170, last sentence). -/
theorem decU32_ok {buf : Buffer} {a lim v p : Nat} (h : decU32 buf a lim = .ok (v, p)) :
    v < 2 ^ 32 ∧ a < p ∧ p ≤ a + 5 ∧ p ≤ lim := by
  unfold decU32 at h
  obtain ⟨g, hg, hk⟩ := Res.bind_eq_ok h
  have := groupLoop_ok _ _ _ hg
  split at hk
  · simp at hk
  · simp only [Res.ok.injEq, Prod.mk.injEq] at hk
    simp only [Config.varintMaxGroups] at this
    omega

theorem decS32_clean {buf : Buffer} {a lim : Nat} (hl : lim ≤ buf.len.toNat) : (decS32 buf a lim).clean := by
  unfold decS32
  refine Res.clean_bind (groupLoop_clean hl _ _) ?_
  intro g _
  split <;> trivial

/-- dec_s32 yields a 32-bit signed value and an offset after `a` that is not past the bound (44_decimal.md R206). -/
theorem decS32_ok {buf : Buffer} {a lim p : Nat} {m : Int} (h : decS32 buf a lim = .ok (m, p)) :
    -2 ^ 31 ≤ m ∧ m ≤ 2 ^ 31 - 1 ∧ a < p ∧ p ≤ a + 5 ∧ p ≤ lim := by
  unfold decS32 at h
  obtain ⟨g, hg, hk⟩ := Res.bind_eq_ok h
  have := groupLoop_ok _ _ _ hg
  split at hk
  · simp at hk
  · simp only [Res.ok.injEq, Prod.mk.injEq] at hk
    simp only [Config.varintMaxGroups] at this
    omega

/-! ### Strings -/

theorem decStrLen_clean {buf : Buffer} {a lim : Nat} (hl : lim ≤ buf.len.toNat) : (decStrLen buf a lim).clean := by
  unfold decStrLen
  split
  · trivial
  · rw [readByte_of_lt (by omega), Res.bind_ok]
    split
    · split
      · trivial
      · rw [readByte_of_lt (by omega)]; trivial
    · trivial

/-- dec_strlen yields a length of at most 32767 and the offset one or two bytes on (43_string.md R191). -/
theorem decStrLen_ok {buf : Buffer} {a lim len p : Nat} (h : decStrLen buf a lim = .ok (len, p)) :
    len ≤ 32767 ∧ (p = a + 1 ∨ p = a + 2) ∧ p ≤ lim := by
  unfold decStrLen at h
  split at h
  · simp at h
  · obtain ⟨b0, -, h0⟩ := Res.bind_eq_ok h
    have hb0 : b0.toNat &&& 0x7F ≤ 127 := Nat.and_le_right
    split at h0
    · split at h0
      · simp at h0
      · obtain ⟨b1, -, h1⟩ := Res.bind_eq_ok h0
        have hb1 := b1.isLt
        simp only [prefixLength, Config.strLenLayout, Res.ok.injEq, Prod.mk.injEq] at h1
        omega
    · simp only [Res.ok.injEq, Prod.mk.injEq] at h0
      omega

/-! ### No body faults on a valid window -/

theorem crc32Body_clean {s : State} (h : s.windowValid) : (crc32Body s).clean :=
  Res.clean_bind (crcRange_clean h.1 h.2) fun _ _ => trivial

theorem crcvBody_clean {s : State} (h : s.windowValid) : (crcvBody s).clean := by
  unfold crcvBody
  split
  · trivial
  · next hb =>
    refine Res.clean_bind (crcRange_clean h.1 h.2) fun _ _ => Res.clean_bind (memRead_clean ?_) fun _ _ => ?_
    · exact Nat.le_of_not_lt hb
    · split <;> trivial

theorem vu32Body_clean {s : State} (h : s.windowValid) : (vu32Body s).clean :=
  Res.clean_bind (decU32_clean h.2) fun _ _ => trivial

theorem vu64Body_clean {s : State} (h : s.windowValid) : (vu64Body s).clean :=
  Res.clean_bind (decU32_clean h.2) fun _ _ => Res.clean_bind (decU32_clean h.2) fun _ _ => trivial

theorem strBody_clean {s : State} (h : s.windowValid) : (strBody s).clean := by
  refine Res.clean_bind (decStrLen_clean h.2) fun _ _ => ?_
  split <;> trivial

theorem decBody_clean {s : State} (h : s.windowValid) : (decBody s).clean := by
  refine Res.clean_bind (decS32_clean h.2) fun d _ => ?_
  have hlim : s.bound ≤ s.buf.len.toNat := h.2
  split
  · trivial
  · exact Res.clean_bind (readByte_clean (by omega)) fun _ _ => trivial

theorem headerFields_clean {buf : Buffer} {f tag len : Nat} {r : Regs} (h : f + 28 ≤ buf.len.toNat) :
    (headerFields buf f tag len r).clean := by
  unfold headerFields
  exact Res.clean_bind (memRead_clean (by omega)) fun _ _ => Res.clean_bind (memRead_clean (by omega)) fun _ _ =>
    Res.clean_bind (memRead_clean (by omega)) fun _ _ => Res.clean_bind (memRead_clean (by omega)) fun _ _ =>
    Res.clean_bind (readByte_clean (by omega)) fun _ _ => Res.clean_bind (readByte_clean (by omega)) fun _ _ => trivial

theorem hdrBody_clean {s : State} (h : s.windowValid) : (hdrBody s).clean := by
  have hlim : s.bound ≤ s.buf.len.toNat := h.2
  unfold hdrBody
  split
  · trivial
  · next hrem =>
    simp only [Config.headerSize] at hrem
    refine Res.clean_bind (memRead_clean (by omega)) fun _ _ => ?_
    split
    · trivial
    · refine Res.clean_bind (memRead_clean (by omega)) fun _ _ => ?_
      split
      · trivial
      · split
        · trivial
        · exact headerFields_clean (by omega)

end Sys2Proof.Machine
end

