-- ==== Sys2Proof/Laws/PerInstr.lean ====
section
/-! SUPPORT. Per-instruction facts about the command as syntax. -/

namespace Sys2Proof.Laws.TableWord

/-- The row of spec/opcode_table.json: 32 bits of it decode to the command, and its word is well formed. -/
def Statement (i : Instr) : Prop :=
  decodeTableWord 32 (encode i).toNat = some i ∧ commandWordWellFormed (encode i) = true

theorem crc32 : Statement .crc32 := by unfold Statement; decide
theorem crcv : Statement .crcv := by unfold Statement; decide
theorem vu32 : Statement .vu32 := by unfold Statement; decide
theorem vu64 : Statement .vu64 := by unfold Statement; decide
theorem str : Statement .str := by unfold Statement; decide
theorem dec : Statement .dec := by unfold Statement; decide
theorem hdr : Statement .hdr := by unfold Statement; decide

end Sys2Proof.Laws.TableWord
end

