-- ==== Sys2Proof/Laws/State.lean ====
section
/-! SUPPORT. One lemma per field per update of State, all true by unfolding, so that no proof unfolds a record update. -/

namespace Sys2Proof.Machine

variable (s : State) (e : Err) (r : Regs) (v : Word) (idx : Nat) (ev : Event)

@[simp] theorem raiseOutcome_regs : (raiseOutcome e s).regs = { s.regs with status := statusWord e.code } := rfl
@[simp] theorem raiseOutcome_buf : (raiseOutcome e s).buf = s.buf := rfl
@[simp] theorem raiseOutcome_magic : (raiseOutcome e s).magic = s.magic := rfl
@[simp] theorem raiseOutcome_pending : (raiseOutcome e s).pending = s.pending := rfl
@[simp] theorem raiseOutcome_answers : (raiseOutcome e s).answers = s.answers := rfl

@[simp] theorem finishOk_regs : (finishOk r s).regs = { r with status := statusWord okCode } := rfl
@[simp] theorem finishOk_buf : (finishOk r s).buf = s.buf := rfl
@[simp] theorem finishOk_magic : (finishOk r s).magic = s.magic := rfl
@[simp] theorem finishOk_pending : (finishOk r s).pending = s.pending := rfl
@[simp] theorem finishOk_answers : (finishOk r s).answers = s.answers := rfl

@[simp] theorem resetInstance_regs : (resetInstance s).regs = Regs.reset := rfl
@[simp] theorem resetInstance_buf : (resetInstance s).buf = s.buf := rfl
@[simp] theorem resetInstance_magic : (resetInstance s).magic = s.magic := rfl
@[simp] theorem resetInstance_pending : (resetInstance s).pending = s.pending := rfl
@[simp] theorem resetInstance_answers : (resetInstance s).answers = s.answers := rfl

@[simp] theorem hostRead_regs : (hostRead idx s).regs = s.regs := rfl
@[simp] theorem hostRead_buf : (hostRead idx s).buf = s.buf := rfl
@[simp] theorem hostRead_magic : (hostRead idx s).magic = s.magic := rfl
@[simp] theorem hostRead_pending : (hostRead idx s).pending = s.pending := rfl
@[simp] theorem hostRead_answers : (hostRead idx s).answers = hostReadValue idx s :: s.answers := rfl

@[simp] theorem writeOff_regs : (writeOff v s).regs = { s.regs with off := v } := rfl
@[simp] theorem writeOff_buf : (writeOff v s).buf = s.buf := rfl
@[simp] theorem writeOff_magic : (writeOff v s).magic = s.magic := rfl
@[simp] theorem writeOff_pending : (writeOff v s).pending = s.pending := rfl
@[simp] theorem writeOff_answers : (writeOff v s).answers = s.answers := rfl

@[simp] theorem writeLim_regs : (writeLim v s).regs = { s.regs with lim := v } := rfl
@[simp] theorem writeLim_buf : (writeLim v s).buf = s.buf := rfl
@[simp] theorem writeLim_magic : (writeLim v s).magic = s.magic := rfl
@[simp] theorem writeLim_pending : (writeLim v s).pending = s.pending := rfl
@[simp] theorem writeLim_answers : (writeLim v s).answers = s.answers := rfl

@[simp] theorem pushEvent_regs : (pushEvent ev s).regs = s.regs := rfl
@[simp] theorem pushEvent_buf : (pushEvent ev s).buf = s.buf := rfl
@[simp] theorem pushEvent_magic : (pushEvent ev s).magic = s.magic := rfl
@[simp] theorem pushEvent_pending : (pushEvent ev s).pending = ev :: s.pending := rfl
@[simp] theorem pushEvent_answers : (pushEvent ev s).answers = s.answers := rfl

/-- Taking the pushed event off the queue gives the state back. -/
theorem step_pushEvent : step (pushEvent ev s) = perform ev s := rfl

/-- The step after `withFetchWord` issues that command word. -/
theorem step_withFetchWord (nbits w : Nat) :
    step (s.withFetchWord nbits w) = issueCommand (BitVec.ofNat 32 (w % 2 ^ nbits)) s := rfl

end Sys2Proof.Machine
end

