-- ==== Sys2Proof/Laws/Worker.lean ====
section
/-! SUPPORT. What the host's side of a command can do, once: a read changes no register, a command is exec and then a read of
STATUS, which names the error outcome. -/

namespace Sys2Proof.Machine

section andThen

variable {α β : Type} (k : α → Host.Outcome β Fault Refusal)

@[simp] theorem andThen_next (a : α) : andThen (.next a) k = k a := rfl
@[simp] theorem andThen_fault (f : Fault) : andThen (.fault f) k = .fault f := rfl
@[simp] theorem andThen_refused (r : Refusal) : andThen (.refused r) k = .refused r := rfl

end andThen

/-- The register of a name is at its index. -/
@[simp] theorem regOfIdx_regIdx (r : Reg) : regOfIdx (regIdx r) = some r := by cases r <;> rfl

@[simp] theorem hostReadValue_regIdx (r : Reg) (s : State) : hostReadValue (regIdx r) s = readReg s r := by
  simp [hostReadValue]

@[simp] theorem hostGet_fst (r : Reg) (s : State) : (hostGet r s).1 = readReg s r := hostReadValue_regIdx r s
@[simp] theorem hostGet_regs (r : Reg) (s : State) : (hostGet r s).2.regs = s.regs := rfl
@[simp] theorem hostGet_buf (r : Reg) (s : State) : (hostGet r s).2.buf = s.buf := rfl
@[simp] theorem hostGet_magic (r : Reg) (s : State) : (hostGet r s).2.magic = s.magic := rfl
@[simp] theorem hostGet_pending (r : Reg) (s : State) : (hostGet r s).2.pending = s.pending := rfl

/-- What a register reads depends on the registers and the buffer alone. -/
theorem readReg_congr {s t : State} (h : t.regs = s.regs) (hb : t.buf = s.buf) (r : Reg) : readReg t r = readReg s r := by
  cases r <;> simp [readReg, h, hb]

/-- HostReads in order give the registers' values and change no register, no byte and nothing pending. -/
theorem hostGetAll_spec (rs : List Reg) (s : State) :
    (hostGetAll rs s).1 = rs.map (readReg s) ∧ (hostGetAll rs s).2.regs = s.regs ∧ (hostGetAll rs s).2.buf = s.buf ∧
      (hostGetAll rs s).2.magic = s.magic ∧ (hostGetAll rs s).2.pending = s.pending := by
  induction rs generalizing s with
  | nil => exact ⟨rfl, rfl, rfl, rfl, rfl⟩
  | cons r rs ih =>
    obtain ⟨h1, h2, h3, h4, h5⟩ := ih (hostGet r s).2
    refine ⟨?_, h2, h3, h4, h5⟩
    simp only [hostGetAll, h1, List.map_cons, hostGet_fst, List.cons.injEq, true_and]
    exact List.map_congr_left fun q _ => readReg_congr (s := s) rfl rfl q

@[simp] theorem errOfStatus_ok : errOfStatus 0#32 = none := by decide
@[simp] theorem errOfStatus_err (e : Err) : errOfStatus (statusWord e.code) = some e := by cases e <;> decide

/-- STATUS reads the code it holds. -/
@[simp] theorem statusWord_statusCode (c : Byte) : statusWord (statusCode (statusWord c)) = statusWord c := by
  unfold statusWord statusCode
  apply BitVec.eq_of_toNat_eq
  simp
  omega

/-- A write of CMD with a command's word is that command. -/
@[simp] theorem hostTransact_command (i : Instr) (s : State) : hostTransact (.write (regIdx .cmd) (encode i)) s = exec i s := by
  cases i <;> rfl

/-- A command that ended OK. -/
theorem hostCommand_ok {i : Instr} {s : State} {r : Regs} (h : exec i s = .next (finishOk r s)) :
    hostCommand i s = .next (none, (hostGet .status (finishOk r s)).2) := by
  simp only [hostCommand, hostTransact_command, h, andThen_next, hostGet_fst]
  rfl

/-- A command that ended with an error outcome. -/
theorem hostCommand_raise {i : Instr} {s : State} {e : Err} (h : exec i s = .next (raiseOutcome e s)) :
    hostCommand i s = .next (some e, (hostGet .status (raiseOutcome e s)).2) := by
  simp only [hostCommand, hostTransact_command, h, andThen_next, hostGet_fst, readReg, raiseOutcome_regs,
    statusWord_statusCode, errOfStatus_err]

end Sys2Proof.Machine
end

