-- ==== Sys2Proof/Tests/Slice0.lean ====
section
/-! SUPPORT. Tests on single steps, with expected values from spec/95_test_vectors.md (V<n>) and the rules' own examples, and a
witness for the hypotheses of every statement that has some. -/

set_option Elab.async false

namespace Sys2Proof.Tests

open Sys2Proof.Machine Sys2Proof.Safety

/-! ### Helpers -/

/-- A state with this buffer, window and the vectors' MAGIC (95, "How to read this file"). -/
def at' (bytes : List Byte) (off lim : Word) : State :=
  { State.reset with
    buf := Buffer.ofBytes bytes, magic := 0x50455453#32, regs := { Regs.reset with off := off, lim := lim } }

/-- Does the command answer a next state of which this holds? -/
def ran (i : Instr) (s : State) (p : State → Bool) : Bool :=
  match exec i s with
  | .next t => p t
  | .fault _ => false
  | .refused _ => false

/-- Does a step answer a next state of which this holds? -/
def stepped (s : State) (p : State → Bool) : Bool :=
  match step s with
  | .next t => p t
  | .fault _ => false
  | .refused _ => false

theorem next_of_ran {i : Instr} {s : State} {p : State → Bool} (h : ran i s p = true) :
    ∃ t, exec i s = .next t ∧ p t = true := by
  unfold ran at h
  split at h
  · next t ht => exact ⟨t, ht, h⟩
  · cases h
  · cases h

theorem next_of_stepped {s : State} {p : State → Bool} (h : stepped s p = true) : ∃ t, step s = .next t ∧ p t = true := by
  unfold stepped at h
  split at h
  · next t ht => exact ⟨t, ht, h⟩
  · cases h
  · cases h

/-- A command that ends OK, or in an error, on this state. -/
theorem status_of_ran {i : Instr} {s : State} {w : Word} (h : ran i s (fun t => t.regs.status == w) = true) :
    ∃ t, exec i s = .next t ∧ t.regs.status = w := by
  obtain ⟨t, ht, hp⟩ := next_of_ran h
  exact ⟨t, ht, by simpa using hp⟩

/-- The 51-byte frame of V16. -/
def frame : List Byte :=
  [0x53, 0x54, 0x45, 0x50, 0x4D, 0x44, 0x44, 0x31, 0x33, 0x00, 0x00, 0x00, 0x00, 0x00, 0x2A, 0x36] ++
  [0xFE, 0x9C, 0x97, 0x17, 0x07, 0x00, 0x00, 0x00, 0x01, 0x00, 0x00, 0x00, 0x01, 0xF8, 0x04, 0x41] ++
  [0x41, 0x50, 0x4C, 0xBD, 0x84, 0x40, 0xFC, 0x83, 0x74, 0xBD, 0x88, 0x34, 0xFC, 0x82, 0x2C, 0x54] ++
  [0x0D, 0x97, 0x6E]

/-! ### The decoder: words written out from 30_encoding.md R90, R91 (OPCODE in 7:0, ZERO in 31:8) -/

theorem test_decode_crc32 : decode (0x000000#24 ++ 0x01#8) = .ok .crc32 := by decide
theorem test_decode_crcv : decode (0x000000#24 ++ 0x02#8) = .ok .crcv := by decide
theorem test_decode_vu32 : decode (0x000000#24 ++ 0x03#8) = .ok .vu32 := by decide
theorem test_decode_vu64 : decode (0x000000#24 ++ 0x04#8) = .ok .vu64 := by decide
theorem test_decode_str : decode (0x000000#24 ++ 0x05#8) = .ok .str := by decide
theorem test_decode_dec : decode (0x000000#24 ++ 0x06#8) = .ok .dec := by decide
theorem test_decode_hdr : decode (0x000000#24 ++ 0x07#8) = .ok .hdr := by decide

/-! ### Well-formedness: an ill-formed term for each check -/

theorem test_wf_refuses_zero_field : commandWordWellFormed 0x00000103#32 = false := by decide
theorem test_wf_refuses_opcode_00 : commandWordWellFormed 0x00000000#32 = false := by decide
theorem test_wf_refuses_opcode_08 : commandWordWellFormed 0x00000008#32 = false := by decide
theorem test_wf_refuses_byte_access : BusAccess.wellFormed (.read 4 1) = false := by decide
theorem test_wf_refuses_misaligned_access : BusAccess.wellFormed (.write 2 4 0) = false := by decide
theorem test_wf_refuses_long_buffer (bytes : List Byte) (h : 2 ^ 32 ≤ bytes.length) :
    Event.wellFormed (.attach bytes) = false := by
  simp [Event.wellFormed]; omega
theorem test_wf_refuses_disturbed_launch : Event.wellFormed (.disturbed 1) = false := by decide
theorem test_wf_accepts : Event.wellFormed (.attach frame) = true ∧ Instr.wellFormed .hdr = true := by decide

/-! ### Commands -/

/-- V4, last row. -/
theorem test_crc32_check_value :
    ran .crc32 (at' [0x31, 0x32, 0x33, 0x34, 0x35, 0x36, 0x37, 0x38, 0x39] 0 9)
      (fun t => t.regs.crc == 0xCBF43926#32 && t.regs.status == 0 && t.regs.off == 0) = true := by decide +kernel
/-- V6, row 28..47: any sub-range. -/
theorem test_crc32_subrange : ran .crc32 (at' frame 28 47) (fun t => t.regs.crc == 0x243041A6#32) = true := by decide +kernel
/-- V6. -/
theorem test_crcv_good_frame :
    ran .crcv (at' frame 0 47) (fun t => t.regs.crc == 0x6E970D54#32 && t.regs.status == 0) = true := by decide +kernel
/-- V6, row 47..47: CORRUPT leaves CRC as it was. -/
theorem test_crcv_corrupt :
    ran .crcv (at' frame 47 47) (fun t => t.regs.crc == 0 && t.regs.status == 3) = true := by decide +kernel
/-- V7, the largest value. -/
theorem test_vu32_largest :
    ran .vu32 (at' [0x8F, 0xFF, 0xFF, 0xFF, 0x7F] 0 5)
      (fun t => t.regs.valLo == 4294967295 && t.regs.valHi == 0 && t.regs.off == 5) = true := by decide +kernel
/-- V8: VAR_RANGE after the fifth byte. -/
theorem test_vu32_too_long :
    ran .vu32 (at' [0x80, 0x80, 0x80, 0x80, 0x80, 0x00] 0 6)
      (fun t => t.regs.status == 0x10 && t.regs.off == 0) = true := by decide +kernel
/-- V9, 1234567890123. -/
theorem test_vu64_value :
    ran .vu64 (at' [0x82, 0x1F, 0x87, 0x8F, 0xEC, 0x89, 0x4B] 0 7)
      (fun t => t.regs.valHi == 0x11F && t.regs.valLo == 0x71FB04CB && t.regs.off == 7) = true := by decide +kernel
/-- V9: all or nothing. -/
theorem test_vu64_second_half_unfinished :
    ran .vu64 (at' [0x00, 0x81] 0 2) (fun t => t.regs.status == 5 && t.regs.off == 0) = true := by decide +kernel
/-- V10, "AAPL". -/
theorem test_str_aapl :
    ran .str (at' [0x04, 0x41, 0x41, 0x50, 0x4C] 0 5)
      (fun t => t.regs.strOff == 1 && t.regs.strLen == 4 && t.regs.off == 5) = true := by decide +kernel
/-- V10, non-minimal two-byte prefix. -/
theorem test_str_two_byte_prefix :
    ran .str (at' [0x80, 0x05, 0x68, 0x65, 0x6C, 0x6C, 0x6F] 0 7)
      (fun t => t.regs.strOff == 2 && t.regs.strLen == 5 && t.regs.off == 7) = true := by decide +kernel
/-- 43_string.md R193: 81 2C is 300 under L15 and would be 172 under L14. -/
theorem test_str_layouts : prefixLength .l15 0x81 0x2C = 300 ∧ prefixLength .l14 0x81 0x2C = 172 := by decide
/-- V12, 100.0000. -/
theorem test_dec_bid_price :
    ran .dec (at' [0xBD, 0x84, 0x40, 0xFC] 0 4)
      (fun t => t.regs.mant == 0x000F4240 && t.regs.exp == 0xFFFFFFFC && t.regs.off == 4) = true := by decide +kernel
/-- V12: -2147483648 * 10^-128. -/
theorem test_dec_least :
    ran .dec (at' [0xF8, 0x80, 0x80, 0x80, 0x00, 0x80] 0 6)
      (fun t => t.regs.mant == 0x80000000 && t.regs.exp == 0xFFFFFF80 && t.regs.off == 6) = true := by decide +kernel
/-- 45_header.md R225, the example. -/
theorem test_hdr_frame :
    ran .hdr (at' frame 0 51)
      (fun t => t.regs.hType == 0x3144444D && t.regs.hLen == 51 && t.regs.hTsLo == 0x362A0000 &&
        t.regs.hTsHi == 0x17979CFE && t.regs.hSeq == 7 && t.regs.hVer == 1 && t.regs.payOff == 28 &&
        t.regs.payLim == 47 && t.regs.off == 0 && t.regs.status == 0) = true := by decide +kernel
/-- V13: NOT_A_FRAME at offset 1. -/
theorem test_hdr_not_a_frame : ran .hdr (at' frame 1 51) (fun t => t.regs.status == 1) = true := by decide +kernel
/-- V13: the marker is tested before the length. -/
theorem test_hdr_marker_first :
    ran .hdr (at' ((frame.set 0 0x52).set 8 0x00) 0 51) (fun t => t.regs.status == 1) = true := by decide +kernel

/-! ### Host access (V15) -/

theorem test_read_buflen : hostReadValue 4 (at' frame 0 0) = 51#32 := by decide +kernel
theorem test_write_cmd_illegal :
    stepped (facing (.host (.write 0 0x00000008)) [] (at' [] 1 0)) (fun t => t.regs.status == 0x13) = true := by
  decide +kernel
theorem test_write_off_then_bad_window :
    ran .crc32 (writeOff 0xFFFFFFFF#32 (at' frame 0 51)) (fun t => t.regs.status == 0x12) = true := by decide +kernel
/-- `R 58` is a read of PAY_LIM; `W 0C 0000002F` writes LIM (V17). -/
theorem test_bus :
    decodeBus (.read 0x58 4) = .ok (.read (regIdx .payLim)) ∧
    decodeBus (.write 0x0C 4 0x2F#32) = .ok (.write (regIdx .lim) 0x2F#32) := by decide
theorem test_withFetchWord :
    stepped (State.reset.withFetchWord 32 1) (fun t => t.regs.status == 0 && t.regs.crc == 0) = true := by decide +kernel
/-- Presence map F8 of V16: Symbol, BidPrice, BidSize, AskPrice, AskSize. -/
theorem test_field_commands : fieldCommands 0xF8#8 = [.str, .dec, .vu32, .dec, .vu32] := by decide

/-! ### One iteration of a worker's loop (V16 to V18, V21; the template id of the vectors is 01) -/

/-- What the host comes to, if nothing stops it. -/
def answer {α : Type} (o : Host.Outcome (α × State) Fault Refusal) : Option α :=
  match o with
  | .next (a, _) => some a
  | .fault _ => none
  | .refused _ => none

/-- The candidate, the fields' words and the cursor, or the candidate, the error and the cursor. -/
def summary : Iteration → Option (Word × Except Err (List (List Word)) × Word)
  | .done => none
  | .rejected a e c => some (a, .error e, c)
  | .accepted a fields c => some (a, .ok (fields.map (·.words)), c)

/-- The 99-byte buffer of V21: two junk bytes, the frame of V16, a frame with Symbol and Volume. -/
def twoFrames : List Byte :=
  [0x00, 0x53] ++ frame ++
  [0x53, 0x54, 0x45, 0x50, 0x4D, 0x44, 0x44, 0x31, 0x2E, 0x00, 0x00, 0x00, 0x01, 0x00, 0x2A, 0x36] ++
  [0xFE, 0x9C, 0x97, 0x17, 0x08, 0x00, 0x00, 0x00, 0x01, 0x00, 0x00, 0x00, 0x01, 0x81, 0x04, 0x4D] ++
  [0x53, 0x46, 0x54, 0x82, 0x1F, 0x87, 0x8F, 0xEC, 0x89, 0x4B, 0xC1, 0x1C, 0xE4, 0xA7]

/-- V21 with the fields of V17: over the junk, the frame at 2 (Symbol at 33, 100.0000, 500, 100.0500, 300), cursor 53. -/
theorem test_iteration_first_frame :
    (answer (workerIteration .hdr 0x01 nextByte 0 99 (at' twoFrames 0 0))).bind summary =
      some (2#32, .ok [[33, 4], [1000000, 0xFFFFFFFC], [500], [1000500, 0xFFFFFFFC], [300]], 53#32) := by decide +kernel
/-- V21: the frame at 53 (Symbol at 84, Volume 1234567890123), cursor 99; the host searches itself. -/
theorem test_iteration_second_frame :
    (answer (workerIteration .host 0x01 nextByte 53 99 (at' twoFrames 0 0))).bind summary =
      some (53#32, .ok [[84, 4], [0x11F, 0x71FB04CB]], 99#32) := by decide +kernel
/-- V21: the source's loop stops at the end of the buffer. -/
theorem test_iteration_done :
    answer (workerIteration .hdr 0x01 nextByte 99 99 (at' twoFrames 0 0)) = some .done := by decide +kernel
/-- V18: bit 0 of byte 30 flipped; the scanner's policy goes one byte on. -/
theorem test_iteration_corrupt :
    (answer (workerIteration .hdr 0x01 nextByte 0 51 (at' (frame.set 30 0x05) 0 0))).bind summary =
      some (0#32, .error .corrupt, 1#32) := by decide +kernel
/-- R254: an unknown template id. -/
theorem test_attempt_unknown_template :
    answer (attempt 0x02 0 (at' frame 0 0)) = some (.rejected .unsupportedTemplate) := by decide +kernel

/-! ### Witnesses: states and operands that meet the hypotheses of the statements -/

theorem witness_HostWriteElsewhereIsIgnored :
    ((1 : Nat) = 1 ∨ 4 ≤ 1) ∧ ((4 : Nat) = 1 ∨ 4 ≤ 4) ∧ ((23 : Nat) = 1 ∨ 4 ≤ 23) := by decide

theorem witness_IllegalWordGivesIllegalCmd :
    (0x00000103#32 >>> 8 ≠ 0#32) ∧ ((0x00000000#32).setWidth 8 = 0x00#8) ∧ 0x08 ≤ ((0x00000008#32).setWidth 8).toNat ∧
      0x08 ≤ ((0x000000FF#32).setWidth 8).toNat := by decide

theorem witness_StepRunsTheDecodedCommand : decode 0x00000007#32 = .ok .hdr := by decide

theorem witness_NothingPendingNothingHappens : State.reset.pending = [] := rfl

theorem witness_DecodeExactlyUndoesEncode : Instr.wellFormed .vu64 = true ∧ decode 0x00000004#32 = .ok .vu64 := by decide

/-- One word past the last command, and the largest word, select none. -/
theorem witness_DecodeExactlyUndoesEncode_edges :
    commandWordWellFormed 0x00000008#32 = false ∧ commandWordWellFormed 0xFFFFFFFF#32 = false ∧
      commandWordWellFormed 0x00000001#32 = true ∧ commandWordWellFormed 0x00000007#32 = true := by decide

theorem witness_BadWindowExactlyWhenIllFormed :
    ¬ (at' [] 1 0).windowValid ∧ ¬ (at' [0] 0 2).windowValid ∧ (at' [0] 1 1).windowValid := by decide +kernel

/-- A buffer of any length exists, so those of 2^32 and of 2^32 - 1 bytes do. -/
theorem exists_length (n : Nat) : ∃ bytes : List Byte, bytes.length = n := ⟨List.replicate n 0, List.length_replicate⟩

theorem witness_EveryStepGoesOnButRefusedLaunches :
    (∃ bytes : List Byte, 2 ^ 32 ≤ bytes.length) ∧ ∃ bytes : List Byte, bytes.length < 2 ^ 32 :=
  ⟨(exists_length _).imp fun _ h => h.ge, [], by simp⟩

theorem witness_AnErrorChangesStatusOnly : ∃ t, exec .vu32 (at' [0x81] 0 1) = .next t ∧ t.regs.status = 0x05#32 :=
  status_of_ran (by decide +kernel)

/-- An illegal word, with a window that is ill formed as well. -/
theorem witness_AnErrorChangesStatusOnly_illegal :
    issueCommand 0x08#32 (at' [] 1 0) = .next (raiseOutcome .illegalCmd (at' [] 1 0)) := rfl

theorem witness_AnErrorRepeats : ∃ t, exec .crcv (at' frame 47 47) = .next t ∧ t.regs.status = 0x03#32 :=
  status_of_ran (by decide +kernel)

theorem witness_OutcomesOfEachCommand : ∀ i : Instr, 0x00000008#32 ≠ encode i := by
  intro i; cases i <;> decide

theorem witness_EveryStepKeepsTheInvariant :
    Inv (pushEvent (.host (.write 0 5)) (at' [0x02, 0x41, 0x42] 0 3)) ∧
    ∃ t, step (pushEvent (.host (.write 0 5)) (at' [0x02, 0x41, 0x42] 0 3)) = .next t ∧
      (t.regs.strLen == 2#32 && t.regs.status == 0#32) = true := by
  refine ⟨⟨?_, ?_, ?_, ?_, ?_, ?_, ?_, ?_, ?_⟩, next_of_stepped ?_⟩ <;> decide +kernel

theorem witness_ImmediatelyAfterOk :
    (∃ t, exec .hdr (at' frame 0 51) = .next t ∧ t.regs.status = 0#32) ∧
    (∃ t, exec .str (at' [0x00] 0 1) = .next t ∧ t.regs.status = 0#32) ∧
    (∃ t, exec .vu32 (at' [0x7F] 0 1) = .next t ∧ t.regs.status = 0#32) :=
  ⟨status_of_ran (by decide +kernel), status_of_ran (by decide +kernel), status_of_ran (by decide +kernel)⟩

theorem witness_NoTransactionWritesTheBuffer :
    ∃ t, step (facing (.host (.write 0 1)) [] (at' frame 0 51)) = .next t ∧ (t.regs.crc == 0x2144DF1C#32) = true :=
  next_of_stepped (by decide +kernel)

theorem witness_CommandFrame : ∃ t, exec .dec (at' [0x40, 0x02] 0 2) = .next t ∧ t.regs.status = 0#32 :=
  status_of_ran (by decide +kernel)

theorem witness_CursorMovement :
    (∃ t, exec .crc32 (at' frame 0 47) = .next t ∧ t.regs.status = 0#32) ∧
    (∃ t, exec .vu32 (at' [0x8F, 0xFF, 0xFF, 0xFF, 0x7F] 0 5) = .next t ∧ t.regs.status = 0#32) ∧
    (∃ t, exec .vu64 (at' [0x00, 0x00] 0 2) = .next t ∧ t.regs.status = 0#32) ∧
    (∃ t, exec .str (at' [0x80, 0x00] 0 2) = .next t ∧ t.regs.status = 0#32) ∧
    (∃ t, exec .dec (at' [0x00, 0x80] 0 2) = .next t ∧ t.regs.status = 0#32) ∧
    (∃ t, exec .dec (at' [0x00] 0 1) = .next t ∧ t.regs.status = 0x05#32) :=
  ⟨status_of_ran (by decide +kernel), status_of_ran (by decide +kernel), status_of_ran (by decide +kernel),
    status_of_ran (by decide +kernel), status_of_ran (by decide +kernel), status_of_ran (by decide +kernel)⟩

/-- The byte just past the window differs. -/
theorem witness_OnlyTheWindowMatters :
    (Buffer.ofBytes [0x83, 0x74, 0xFF]).len = (at' [0x83, 0x74, 0x00] 0 2).buf.len ∧
    (∀ a < 2, (Buffer.ofBytes [0x83, 0x74, 0xFF]).byteAt a = (at' [0x83, 0x74, 0x00] 0 2).buf.byteAt a) ∧
    readEnd .vu32 (at' [0x83, 0x74, 0x00] 0 2) = 2 ∧ readEnd .crcv (at' frame 0 47) = 51 ∧
    ∃ t, exec .vu32 (at' [0x83, 0x74, 0x00] 0 2) = .next t ∧ t.regs.status = 0#32 :=
  ⟨by decide +kernel, by decide +kernel, by decide +kernel, by decide +kernel, status_of_ran (by decide +kernel)⟩

theorem witness_OnlyOffAndLimMatter :
    (∃ t, exec .vu32 (at' [0x05] 0 1) = .next t ∧ t.regs.status = 0#32) ∧
    (∃ t, exec .vu32 (at' [0x85] 0 1) = .next t ∧ t.regs.status = 0x05#32) ∧
    ({ Regs.reset with lim := 1, valLo := 9, status := 0x13 } : Regs).off = (at' [0x05] 0 1).regs.off ∧
    ({ Regs.reset with lim := 1, valLo := 9, status := 0x13 } : Regs).lim = (at' [0x05] 0 1).regs.lim :=
  ⟨status_of_ran (by decide +kernel), status_of_ran (by decide +kernel), rfl, rfl⟩

theorem witness_CrcRangeLaws :
    (0 : Nat) ≤ 1 ∧ (1 : Nat) ≤ 1 ∧ 0 + 2 ≤ (Buffer.ofBytes [1, 2]).len.toNat ∧ 1 + 2 ≤ (Buffer.ofBytes [9, 1, 2]).len.toNat ∧
    ∀ i < 2, (Buffer.ofBytes [1, 2]).byteAt (0 + i) = (Buffer.ofBytes [9, 1, 2]).byteAt (1 + i) := by decide +kernel

theorem witness_Crc32ChecksumsTheWindow :
    (at' frame 0 51).windowValid ∧ (at' [] 0 0).windowValid ∧ ¬ (at' frame 0 52).windowValid := by decide +kernel

theorem witness_CrcvComparesWithTheTrailer :
    (at' frame 0 48).windowValid ∧ (at' frame 0 48).buf.len.toNat < (at' frame 0 48).bound + 4 ∧
    (at' frame 0 47).windowValid ∧ (at' frame 0 47).bound + 4 ≤ (at' frame 0 47).buf.len.toNat ∧
    (checksum (windowBytes (at' frame 0 47))).toNat = leSum (at' frame 0 47).buf 47 4 ∧
    (checksum (windowBytes (at' frame 47 47))).toNat ≠ leSum (at' frame 47 47).buf 47 4 := by decide +kernel

/-- Bit 0 of byte 30 flipped (V18), and the last byte of the window changed. -/
theorem witness_OneChangedByteIsAlwaysDetected :
    (∃ t, exec .crcv (at' frame 0 47) = .next t ∧ t.regs.status = 0#32) ∧
    (Buffer.ofBytes (frame.set 30 0x05)).len = (at' frame 0 47).buf.len ∧
    (Buffer.ofBytes (frame.set 30 0x05)).byteAt 30 ≠ (at' frame 0 47).buf.byteAt 30 ∧
    (∀ x < 51, x ≠ 30 → (Buffer.ofBytes (frame.set 30 0x05)).byteAt x = (at' frame 0 47).buf.byteAt x) ∧
    (Buffer.ofBytes (frame.set 46 0x00)).byteAt 46 ≠ (at' frame 0 47).buf.byteAt 46 :=
  ⟨status_of_ran (by decide +kernel), by decide +kernel, by decide +kernel, by decide +kernel, by decide +kernel⟩

theorem witness_ResidueOfAGoodFrame : ∃ t, exec .crcv (at' [0, 0, 0, 0] 0 0) = .next t ∧ t.regs.status = 0#32 :=
  status_of_ran (by decide +kernel)

theorem witness_Vu32OutcomeAndResult :
    (at' [0x8F, 0xFF, 0xFF, 0xFF, 0x7F] 0 5).windowValid ∧
    stopBitAt (at' [0x8F, 0xFF, 0xFF, 0xFF, 0x7F] 0 5).buf 0 5 5 ∧
    groupSum (at' [0x8F, 0xFF, 0xFF, 0xFF, 0x7F] 0 5).buf 0 5 = 2 ^ 32 - 1 ∧
    stopBitAt (at' [0x00] 0 1).buf 0 1 1 := by decide +kernel

theorem witness_Vu32OutcomeAndResult_errors :
    unfinishedAt (at' [] 0 0).buf 0 0 ∧ unfinishedAt (at' [0x80, 0x80, 0x80, 0x80] 0 4).buf 0 4 ∧
    tooLongAt (at' [0x80, 0x80, 0x80, 0x80, 0x80] 0 5).buf 0 5 ∧
    stopBitAt (at' [0x90, 0x80, 0x80, 0x80, 0x00] 0 5).buf 0 5 5 ∧
    groupSum (at' [0x90, 0x80, 0x80, 0x80, 0x00] 0 5).buf 0 5 = 2 ^ 32 := by decide +kernel

theorem witness_Vu64OutcomeAndResult :
    (at' [0x01, 0x00] 0 2).windowValid ∧ stopBitAt (at' [0x01, 0x00] 0 2).buf 0 1 2 ∧
    groupSum (at' [0x01, 0x00] 0 2).buf 0 1 = 1 ∧ stopBitAt (at' [0x01, 0x00] 0 2).buf (0 + 1) 1 2 ∧
    groupSum (at' [0x01, 0x00] 0 2).buf (0 + 1) 1 < 2 ^ 32 := by decide +kernel

theorem witness_Vu64OutcomeAndResult_errors :
    unfinishedAt (at' [] 0 0).buf 0 0 ∧ tooLongAt (at' [0x80, 0x80, 0x80, 0x80, 0x80] 0 5).buf 0 5 ∧
    (stopBitAt (at' [0x90, 0x80, 0x80, 0x80, 0x00] 0 5).buf 0 5 5 ∧
      2 ^ 32 ≤ groupSum (at' [0x90, 0x80, 0x80, 0x80, 0x00] 0 5).buf 0 5) ∧
    (stopBitAt (at' [0x00] 0 1).buf 0 1 1 ∧ unfinishedAt (at' [0x00] 0 1).buf (0 + 1) 1) ∧
    (stopBitAt (at' [0x00, 0x80, 0x80, 0x80, 0x80, 0x80] 0 6).buf 0 1 6 ∧
      tooLongAt (at' [0x00, 0x80, 0x80, 0x80, 0x80, 0x80] 0 6).buf (0 + 1) 6) ∧
    (stopBitAt (at' [0x00, 0x90, 0x80, 0x80, 0x80, 0x00] 0 6).buf (0 + 1) 5 6 ∧
      2 ^ 32 ≤ groupSum (at' [0x00, 0x90, 0x80, 0x80, 0x80, 0x00] 0 6).buf (0 + 1) 5) := by decide +kernel

/-- The minimal spelling of 500 and a longer one; the largest value in 5 groups. -/
theorem witness_Vu32UndoesEverySpelling :
    standsAt (at' [0x83, 0x74] 0 2).buf 0 2 (spellGroups 2 500) ∧ minGroups 500 = 2 ∧
    standsAt (at' [0x80, 0x80, 0x80, 0x83, 0x74] 0 5).buf 0 5 (spellGroups 5 500) ∧ 500 < 128 ^ 2 ∧
    standsAt (at' [0x8F, 0xFF, 0xFF, 0xFF, 0x7F] 0 5).buf 0 5 (spellGroups 5 4294967295) := by decide +kernel

theorem witness_Vu64UndoesTheMinimalSpelling :
    (at' [0x82, 0x1F, 0x87, 0x8F, 0xEC, 0x89, 0x4B] 0 7).windowValid ∧ 1234567890123 < 2 ^ 64 ∧
    standsAt (at' [0x82, 0x1F, 0x87, 0x8F, 0xEC, 0x89, 0x4B] 0 7).buf 0 7
      (spellGroups (minGroups (1234567890123 / 2 ^ 32)) (1234567890123 / 2 ^ 32) ++
        spellGroups (minGroups (1234567890123 % 2 ^ 32)) (1234567890123 % 2 ^ 32)) := by decide +kernel

/-- A string that ends at the bound, the empty string, and a two-byte prefix stating 0. -/
theorem witness_StrOutcomeAndResult :
    ((at' [0x01, 0x41] 0 2).windowValid ∧ ¬ moreAt (at' [0x01, 0x41] 0 2).buf 0 ∧
      0 + 1 + ((at' [0x01, 0x41] 0 2).buf.byteAt 0).toNat ≤ 2) ∧
    (¬ moreAt (at' [0x00] 0 1).buf 0 ∧ 0 + 1 + ((at' [0x00] 0 1).buf.byteAt 0).toNat ≤ 1) ∧
    (moreAt (at' [0x80, 0x00] 0 2).buf 0 ∧
      0 = (((at' [0x80, 0x00] 0 2).buf.byteAt 0).toNat - 128) * 256 + ((at' [0x80, 0x00] 0 2).buf.byteAt 1).toNat) := by
  decide +kernel

theorem witness_StrOutcomeAndResult_errors :
    (at' [] 0 0).cursor = (at' [] 0 0).bound ∧
    ((at' [0x80] 0 1).cursor + 1 = (at' [0x80] 0 1).bound ∧ moreAt (at' [0x80] 0 1).buf 0) ∧
    (¬ moreAt (at' [0x01] 0 1).buf 0 ∧ 1 < 0 + 1 + ((at' [0x01] 0 1).buf.byteAt 0).toNat) ∧
    (moreAt (at' [0x80, 0x01] 0 2).buf 0 ∧
      2 < 0 + 2 + ((((at' [0x80, 0x01] 0 2).buf.byteAt 0).toNat - 128) * 256 + ((at' [0x80, 0x01] 0 2).buf.byteAt 1).toNat)) := by
  decide +kernel

/-- The last one-byte length and the first two-byte length. -/
theorem witness_StrUndoesThePrefix :
    standsAt (at' [0x7F] 0 1).buf 0 1 (spellStrLen 127) ∧ standsAt (at' [0x80, 0x80] 0 2).buf 0 2 (spellStrLen 128) ∧
    standsAt (at' [0xFF, 0xFF] 0 2).buf 0 2 (spellStrLen 32767) ∧
    (standsAt (at' [0x01, 0x41] 0 2).buf 0 2 (spellStrLen 1) ∧ 0 + (spellStrLen 1).length + 1 ≤ 2) := by decide +kernel

/-- -2147483648 * 10^-128 and the largest mantissa. -/
theorem witness_DecOutcomeAndResult :
    stopBitAt (at' [0xF8, 0x80, 0x80, 0x80, 0x00, 0x80] 0 6).buf 0 5 6 ∧
    signedSum (at' [0xF8, 0x80, 0x80, 0x80, 0x00, 0x80] 0 6).buf 0 5 = -2 ^ 31 ∧
    signedSum (at' [0x87, 0xFF, 0xFF, 0xFF, 0x7F, 0x7F] 0 6).buf 0 5 = 2 ^ 31 - 1 ∧ 0 + 5 < 6 := by decide +kernel

theorem witness_DecOutcomeAndResult_errors :
    unfinishedAt (at' [0xBD, 0x84] 0 2).buf 0 2 ∧ tooLongAt (at' [0xFF, 0xFF, 0xFF, 0xFF, 0xFF] 0 5).buf 0 5 ∧
    (stopBitAt (at' [0x88, 0x80, 0x80, 0x80, 0x00] 0 5).buf 0 5 5 ∧
      2 ^ 31 - 1 < signedSum (at' [0x88, 0x80, 0x80, 0x80, 0x00] 0 5).buf 0 5) ∧
    signedSum (at' [0xF7, 0xFF, 0xFF, 0xFF, 0x7F] 0 5).buf 0 5 < -2 ^ 31 ∧
    (stopBitAt (at' [0xBD, 0x84, 0x40] 0 3).buf 0 3 3 ∧ (at' [0xBD, 0x84, 0x40] 0 3).cursor + 3 = (at' [0xBD, 0x84, 0x40] 0 3).bound) := by
  decide +kernel

/-- -65 in its two groups, and -64 in one (V11). -/
theorem witness_DecUndoesEverySpelling :
    standsAt (at' [0xFF, 0x3F, 0xFE] 0 3).buf 0 3 (spellSigned 2 (-65) ++ [0xFE]) ∧
    standsAt (at' [0x40, 0x00] 0 2).buf 0 2 (spellSigned 1 (-64) ++ [0x00]) ∧
    (-64 : Int) * 128 ^ (2 - 1) ≤ -65 ∧ (-65 : Int) < 64 * 128 ^ (2 - 1) ∧ (-64 : Int) * 128 ^ (1 - 1) ≤ -64 := by
  decide +kernel

theorem witness_HdrOutcomeAndResult :
    (at' frame 0 51).windowValid ∧ 28 ≤ (at' frame 0 51).bound - (at' frame 0 51).cursor ∧
    leSum (at' frame 0 51).buf 0 4 = (at' frame 0 51).magic.toNat ∧ leSum (at' frame 0 51).buf (0 + 8) 4 = 51 ∧
    leSum (at' (frame.set 8 0x20) 0 51).buf (0 + 8) 4 = 32 := by decide +kernel

theorem witness_HdrOutcomeAndResult_errors :
    (at' frame 0 27).bound - (at' frame 0 27).cursor < 28 ∧
    leSum (at' frame 1 51).buf 1 4 ≠ (at' frame 1 51).magic.toNat ∧
    (leSum (at' (frame.set 8 0x1F) 0 51).buf 0 4 = (at' frame 0 51).magic.toNat ∧
      leSum (at' (frame.set 8 0x1F) 0 51).buf (0 + 8) 4 < 32) ∧
    (at' frame 0 50).bound - (at' frame 0 50).cursor < leSum (at' frame 0 50).buf (0 + 8) 4 := by decide +kernel

/-- The least frame of V14: version 0xABCD, flags 0x5A, reserved 0xC3. -/
def oddHeader : HeaderFields := ⟨0x50455453#32, 0#32, 32#32, 0#64, 0#32, 0xABCD#16, 0x5A#8, 0xC3#8⟩

theorem witness_HdrUndoesTheLayout :
    standsAt (at' (headerBytes oddHeader ++ [0x23, 0x94, 0xBE, 0x8A]) 0 32).buf 0 32 (headerBytes oddHeader) ∧
    oddHeader.startTag = (at' [] 0 0).magic ∧ 32 ≤ oddHeader.msgLength.toNat ∧ oddHeader.msgLength.toNat ≤ 32 - 0 := by
  decide +kernel

theorem witness_HdrThenCrcvVerifiesTheFrame : ∃ t, exec .hdr (at' frame 0 51) = .next t ∧ t.regs.status = 0#32 :=
  status_of_ran (by decide +kernel)

theorem witness_MemReadIsLittleEndian : 47 + 4 ≤ (Buffer.ofBytes frame).len.toNat := by decide +kernel

theorem witness_AttachedBufferIsSeenEntirely : ([] : List Byte).length < 2 ^ 32 ∧ frame.length < 2 ^ 32 := by decide +kernel

theorem witness_LaunchesOutsideTheModelAreRefused : ∃ bytes : List Byte, 2 ^ 32 ≤ bytes.length :=
  (exists_length _).imp fun _ h => h.ge

/-- Two instances on the frame, each with a host that writes LIM and issues CRC32. -/
def twoUnits : System :=
  ⟨Buffer.ofBytes frame, List.replicate 2 { unitOf State.reset with pending := [.host (.write 3 47), .host (.write 0 1)] }⟩

theorem witness_InterleavingOfInstancesDoesNotMatter :
    [0, 0, 1, 1].Perm [0, 1, 0, 1] ∧ (∀ k ∈ [0, 0, 1, 1], k < twoUnits.units.length) ∧
    ∀ u ∈ twoUnits.units, ∀ e ∈ u.pending, ∃ t : HostTxn, e = .host t := by
  refine ⟨by decide, by decide, ?_⟩
  intro u hu e he
  obtain rfl := List.eq_of_mem_replicate hu
  simp at he
  rcases he with rfl | rfl <;> exact ⟨_, rfl⟩

/-- Offsets for the clauses of the statement: too few bytes left, no marker, a length of 31, a length beyond the buffer, a
trailer that disagrees, and a good frame. -/
theorem witness_AttemptFollowsTheSteps :
    answer (attempt 0x01 24 (at' frame 0 0)) = some (.rejected .truncated) ∧
    answer (attempt 0x01 23 (at' frame 0 0)) = some .noMarker ∧
    answer (attempt 0x01 0 (at' (frame.set 8 0x1F) 0 0)) = some (.rejected .badLength) ∧
    answer (attempt 0x01 0 (at' (frame.set 8 0x34) 0 0)) = some (.rejected .truncated) ∧
    (¬ trailerAgrees (at' (frame.set 30 0x05) 0 0).buf 0 ∧ trailerAgrees (at' frame 0 0).buf 0) ∧
    lengthAt (at' frame 0 0).buf 0 = 51 ∧ leSum (at' frame 0 0).buf 0 4 = (at' frame 0 0).magic.toNat ∧
    (at' frame 0 0).buf.byteAt 28 = 0x01#8 := by decide +kernel

/-- A field that ends OK, and the same field at the end of its window. -/
theorem witness_FieldsAreDecodedInOrder :
    (∃ t, exec (wireCommand .uint32) (at' [0x05] 0 1) = .next t ∧ t.regs.status = 0#32) ∧
    (∃ t, exec (wireCommand .uint32) (at' [0x05] 0 0) = .next t ∧ t.regs.status = (Err.code .fieldOverrun).setWidth 32) ∧
    (at' [0x05] 0 1).windowValid :=
  ⟨status_of_ran (by decide +kernel), status_of_ran (by decide +kernel), by decide +kernel⟩

/-- The marker behind two junk bytes; with the assigned end at 29 no candidate reaches it. -/
theorem witness_WorkerIterationTriesTheFirstMarker :
    firstMarker (at' twoFrames 0 0) 0 99 2 ∧ (99 : Word).toNat ≤ (at' twoFrames 0 0).buf.len.toNat ∧
    (∀ a < 100, ¬ firstMarker (at' twoFrames 0 0) 0 29 a) := by
  refine ⟨⟨by decide, by decide, by decide +kernel, ?_⟩, by decide +kernel, ?_⟩
  · have h : ∀ b < 2, leSum (at' twoFrames 0 0).buf b 4 ≠ (at' twoFrames 0 0).magic.toNat := by decide +kernel
    exact fun b _ hb => h b hb
  · rintro a - ⟨-, h, hm, -⟩
    have h' : ∀ b < 2, leSum (at' twoFrames 0 0).buf b 4 ≠ (at' twoFrames 0 0).magic.toNat := by decide +kernel
    exact h' a (by omega) hm

end Sys2Proof.Tests
end

section
/-! SUPPORT. What the body of a command can deliver, raise and write, once for all seven commands. -/

namespace Sys2Proof.Machine

open Sys2Proof.Safety

/-! ### Sequencing -/

theorem Res.bind_assoc {α β γ : Type} (r : Res α) (k : α → Res β) (l : β → Res γ) :
    (r.bind k).bind l = r.bind fun a => (k a).bind l := by
  cases r <;> rfl

theorem Res.ite_bind {α β : Type} (p : Prop) [Decidable p] (a b : Res α) (k : α → Res β) :
    (if p then a else b).bind k = if p then a.bind k else b.bind k := by
  split <;> rfl

/-- A part that, if it ends with an error outcome, ends with one of these codes. -/
def Res.raisesIn {α : Type} (codes : List Byte) : Res α → Prop
  | .ok _ => True
  | .raise e => e.code ∈ codes
  | .fault _ => True

theorem Res.raisesIn_raise {α : Type} {codes : List Byte} {e : Err} (h : e.code ∈ codes) :
    (Res.raise e : Res α).raisesIn codes := h

/-- A sequence raises no more than its parts do. -/
theorem Res.raisesIn_bind {α β : Type} {codes : List Byte} {r : Res α} {k : α → Res β} (hr : r.raisesIn codes)
    (hk : ∀ a, (k a).raisesIn codes) : (r.bind k).raisesIn codes := by
  cases r with
  | ok a => exact hk a
  | raise e => exact hr
  | fault f => trivial

/-! ### Reads of the buffer -/

theorem readByte_eq_ok {buf : Buffer} {a : Nat} {b : Byte} (h : readByte buf a = .ok b) : b = buf.byteAt a := by
  unfold readByte at h
  split at h
  · exact (Res.ok.inj h).symm
  · cases h

/-- MemRead delivers a value of its width, wherever it reads. -/
theorem memRead_lt {buf : Buffer} : ∀ {n a v : Nat}, memRead buf a n = .ok v → v < 256 ^ n
  | 0, _, _, h => by cases h; simp
  | n + 1, a, v, h => by
    obtain ⟨b, -, hb⟩ := Res.bind_eq_ok h
    obtain ⟨rest, hrest, hv⟩ := Res.bind_eq_ok hb
    have hlt := memRead_lt hrest
    have hbyte := b.isLt
    cases hv
    rw [pow_succ]
    omega

section raises

variable {buf : Buffer} {codes : List Byte}

theorem readByte_raisesIn (a : Nat) : (readByte buf a).raisesIn codes := by
  unfold readByte
  split <;> trivial

theorem memRead_raisesIn (n : Nat) : ∀ a, (memRead buf a n).raisesIn codes := by
  induction n with
  | zero => intro a; trivial
  | succ n ih =>
    intro a
    exact Res.raisesIn_bind (readByte_raisesIn a) fun _ => Res.raisesIn_bind (ih _) fun _ => trivial

theorem crcRaw_raisesIn (n : Nat) : ∀ c a, (crcRaw buf c a n).raisesIn codes := by
  induction n with
  | zero => intro c a; trivial
  | succ n ih => intro c a; exact Res.raisesIn_bind (readByte_raisesIn a) fun _ => ih _ _

theorem crcRange_raisesIn (a l : Nat) : (crcRange buf a l).raisesIn codes :=
  Res.raisesIn_bind (crcRaw_raisesIn _ _ _) fun _ => trivial

theorem groupLoop_raisesIn {lim : Nat} (hover : Err.fieldOverrun.code ∈ codes) (hrange : Err.varRange.code ∈ codes)
    (left : Nat) : ∀ g, (groupLoop buf lim left g).raisesIn codes := by
  induction left with
  | zero => intro g; exact hrange
  | succ left ih =>
    intro g
    unfold groupLoop
    split
    · exact hover
    · refine Res.raisesIn_bind (readByte_raisesIn _) fun b => ?_
      split
      · exact ih _
      · trivial

theorem decU32_raisesIn (a lim : Nat) (hover : Err.fieldOverrun.code ∈ codes) (hrange : Err.varRange.code ∈ codes) :
    (decU32 buf a lim).raisesIn codes := by
  refine Res.raisesIn_bind (groupLoop_raisesIn hover hrange _ _) fun g => ?_
  split
  · exact hrange
  · trivial

theorem decS32_raisesIn (a lim : Nat) (hover : Err.fieldOverrun.code ∈ codes) (hrange : Err.varRange.code ∈ codes) :
    (decS32 buf a lim).raisesIn codes := by
  refine Res.raisesIn_bind (groupLoop_raisesIn hover hrange _ _) fun g => ?_
  split
  · exact hrange
  · trivial

theorem decStrLen_raisesIn (a lim : Nat) (hover : Err.fieldOverrun.code ∈ codes) : (decStrLen buf a lim).raisesIn codes := by
  unfold decStrLen
  split
  · exact hover
  · refine Res.raisesIn_bind (readByte_raisesIn _) fun b0 => ?_
    split
    · split
      · exact hover
      · exact Res.raisesIn_bind (readByte_raisesIn _) fun _ => trivial
    · trivial

theorem headerFields_raisesIn (f tag len : Nat) (r : Regs) : (headerFields buf f tag len r).raisesIn codes := by
  unfold headerFields
  exact Res.raisesIn_bind (memRead_raisesIn _ _) fun _ => Res.raisesIn_bind (memRead_raisesIn _ _) fun _ =>
    Res.raisesIn_bind (memRead_raisesIn _ _) fun _ => Res.raisesIn_bind (memRead_raisesIn _ _) fun _ =>
    Res.raisesIn_bind (readByte_raisesIn _) fun _ => Res.raisesIn_bind (readByte_raisesIn _) fun _ => trivial

end raises

/-! ### The bodies as one function -/

/-- The body of each command. -/
def bodyOf : Instr → State → Res Regs
  | .crc32 => crc32Body
  | .crcv => crcvBody
  | .vu32 => vu32Body
  | .vu64 => vu64Body
  | .str => strBody
  | .dec => decBody
  | .hdr => hdrBody

/-- Every command is the common prologue and epilogue around its body (40_dispatch.md R134). -/
theorem exec_eq_runCommand (i : Instr) (s : State) : exec i s = runCommand (bodyOf i) s := by
  cases i <;> rfl

/-- A body raises only outcomes that the table 60_exceptions.md R282 lists for its command. -/
theorem bodyOf_raisesIn (i : Instr) (s : State) : (bodyOf i s).raisesIn (outcomesOf i) := by
  cases i with
  | crc32 => exact Res.raisesIn_bind (crcRange_raisesIn _ _) fun _ => trivial
  | crcv =>
    change (crcvBody s).raisesIn _
    unfold crcvBody
    split
    · exact Res.raisesIn_raise (by decide)
    · refine Res.raisesIn_bind (crcRange_raisesIn _ _) fun _ => Res.raisesIn_bind (memRead_raisesIn _ _) fun _ => ?_
      split
      · trivial
      · exact Res.raisesIn_raise (by decide)
  | vu32 => exact Res.raisesIn_bind (decU32_raisesIn _ _ (by decide) (by decide)) fun _ => trivial
  | vu64 =>
    exact Res.raisesIn_bind (decU32_raisesIn _ _ (by decide) (by decide)) fun _ =>
      Res.raisesIn_bind (decU32_raisesIn _ _ (by decide) (by decide)) fun _ => trivial
  | str =>
    refine Res.raisesIn_bind (decStrLen_raisesIn _ _ (by decide)) fun _ => ?_
    split
    · exact Res.raisesIn_raise (by decide)
    · trivial
  | dec =>
    refine Res.raisesIn_bind (decS32_raisesIn _ _ (by decide) (by decide)) fun _ => ?_
    split
    · exact Res.raisesIn_raise (by decide)
    · exact Res.raisesIn_bind (readByte_raisesIn _) fun _ => trivial
  | hdr =>
    change (hdrBody s).raisesIn _
    unfold hdrBody
    split
    · exact Res.raisesIn_raise (by decide)
    · refine Res.raisesIn_bind (memRead_raisesIn _ _) fun _ => ?_
      split
      · exact Res.raisesIn_raise (by decide)
      · refine Res.raisesIn_bind (memRead_raisesIn _ _) fun _ => ?_
        split
        · exact Res.raisesIn_raise (by decide)
        · split
          · exact Res.raisesIn_raise (by decide)
          · exact headerFields_raisesIn _ _ _ _

/-- What a command can answer: an error outcome of its row of R282, or the registers its body delivers on a valid window. -/
theorem exec_next {i : Instr} {s t : State} (h : exec i s = .next t) :
    (∃ e : Err, e.code ∈ outcomesOf i ∧ t = raiseOutcome e s) ∨
    (s.windowValid ∧ ∃ q, bodyOf i s = .ok q ∧ t = finishOk q s) := by
  rw [exec_eq_runCommand] at h
  obtain ⟨-, rfl⟩ | hok | ⟨-, e, he, rfl⟩ := runCommand_next h
  · exact .inl ⟨.badWindow, by cases i <;> decide, rfl⟩
  · exact .inr hok
  · have hcode := bodyOf_raisesIn i s
    rw [he] at hcode
    exact .inl ⟨e, hcode, rfl⟩

/-- A command that ended OK. -/
theorem exec_next_of_ok {i : Instr} {s t : State} (h : exec i s = .next t) (hst : t.regs.status = 0#32) :
    s.windowValid ∧ ∃ q, bodyOf i s = .ok q ∧ t = finishOk q s := by
  obtain ⟨e, -, rfl⟩ | hok := exec_next h
  · exact absurd hst (statusWord_err_ne e)
  · exact hok

/-- A command that ended with an error outcome. -/
theorem exec_next_of_error {i : Instr} {s t : State} (h : exec i s = .next t) (hst : t.regs.status ≠ 0#32) :
    ∃ e : Err, e.code ∈ outcomesOf i ∧ t = raiseOutcome e s := by
  obtain herr | ⟨-, q, -, rfl⟩ := exec_next h
  · exact herr
  · exact absurd rfl hst

/-! ### What a command writes -/

/-- The registers `r` with those that the command writes (10_state.md R21) taken from `q`. -/
def overlay : Instr → Regs → Regs → Regs
  | .crc32, q, r => { r with crc := q.crc }
  | .crcv, q, r => { r with crc := q.crc }
  | .vu32, q, r => { r with valLo := q.valLo, valHi := q.valHi, off := q.off }
  | .vu64, q, r => { r with valLo := q.valLo, valHi := q.valHi, off := q.off }
  | .str, q, r => { r with strOff := q.strOff, strLen := q.strLen, off := q.off }
  | .dec, q, r => { r with mant := q.mant, exp := q.exp, off := q.off }
  | .hdr, q, r =>
    { r with
      hTag := q.hTag, hType := q.hType, hLen := q.hLen, hTsLo := q.hTsLo, hTsHi := q.hTsHi, hSeq := q.hSeq
      hVer := q.hVer, hFlags := q.hFlags, hRsvd := q.hRsvd, payOff := q.payOff, payLim := q.payLim }

@[simp] theorem overlay_lim (i : Instr) (q r : Regs) : (overlay i q r).lim = r.lim := by cases i <;> rfl

/-- `overlay` follows the table R21: a register reads as in `q` if the command writes it, and as in `r` if not. -/
theorem readReg_overlay (i : Instr) (q r : Regs) (s : State) (x : Reg) :
    readReg (finishOk (overlay i q r) s) x =
      if x ∈ writesOf i then readReg (finishOk q s) x else readReg (finishOk r s) x := by
  cases i <;> cases x <;> rfl

/-- A body uses no register but OFF and LIM, and writes no register but those that R21 lists for its command (10_state.md
R36): from other registers with the same window it ends in the same way, with the same values written. -/
theorem bodyOf_withRegs (i : Instr) (s : State) {r : Regs} (hoff : r.off = s.regs.off) (hlim : r.lim = s.regs.lim) :
    bodyOf i { s with regs := r } = (bodyOf i s).bind fun q => .ok (overlay i q r) := by
  have hcursor : State.cursor { s with regs := r } = s.cursor := congrArg BitVec.toNat hoff
  have hbound : State.bound { s with regs := r } = s.bound := congrArg BitVec.toNat hlim
  have hlen : State.bufLen { s with regs := r } = s.bufLen := rfl
  cases i <;>
    simp only [bodyOf, crc32Body, crcvBody, vu32Body, vu64Body, strBody, decBody, hdrBody, headerFields, hcursor, hbound, hlen,
      Res.bind_assoc, Res.ite_bind, Res.bind_ok, Res.bind_raise, overlay]

/-- What a body delivers differs from the registers it started with only where R21 says. -/
theorem bodyOf_ok_overlay {i : Instr} {s : State} {q : Regs} (h : bodyOf i s = .ok q) : q = overlay i q s.regs := by
  have hself := bodyOf_withRegs i s (r := s.regs) rfl rfl
  exact Res.ok.inj (h.symm.trans (hself.trans (congrArg (Res.bind · _) h)))

/-! ### What each body delivers -/

theorem continues_iff (b : Byte) : continues b = true ↔ 128 ≤ b.toNat := by
  have hb := b.isLt
  rw [continues, BitVec.getLsbD, Nat.testBit_eq_decide_div_mod_eq, decide_eq_true_eq]
  omega

/-- The group loop ends one past a stop-bit integer of at most `left` groups (42_varint.md R170). -/
theorem groupLoop_next {buf : Buffer} {lim : Nat} (left : Nat) :
    ∀ g g' : Groups, groupLoop buf lim left g = .ok g' →
      ∃ n, 1 ≤ n ∧ n ≤ left ∧ g'.next = g.next + n ∧ g.next + n ≤ lim ∧
        (∀ i < n - 1, moreAt buf (g.next + i)) ∧ ¬ moreAt buf (g.next + (n - 1)) := by
  induction left with
  | zero => intro g g' h; cases h
  | succ left ih =>
    intro g g' h
    unfold groupLoop at h
    split at h
    · cases h
    next hlim =>
    obtain ⟨b, hread, h⟩ := Res.bind_eq_ok h
    have hb := continues_iff b
    rw [readByte_eq_ok hread] at hb h
    split at h
    · next hmore =>
      obtain ⟨n, hn, hle, hnext, hend, hall, hlast⟩ := ih _ _ h
      obtain ⟨m, rfl⟩ : ∃ m, n = m + 1 := ⟨n - 1, by omega⟩
      simp only [Nat.add_sub_cancel] at hnext hend hall hlast ⊢
      refine ⟨m + 2, by omega, by omega, by omega, by omega, ?_, ?_⟩
      · rintro (_ | i) hi
        · exact hb.mp hmore
        · rw [show g.next + (i + 1) = g.next + 1 + i by omega]
          exact hall i (by omega)
      · rwa [show g.next + (m + 2 - 1) = g.next + 1 + m by omega]
    · next hstop =>
      cases h
      exact ⟨1, by omega, by omega, rfl, by omega, by simp, fun hmore => hstop (hb.mpr hmore)⟩

/-- From no groups read, that is a stop-bit integer at the loop's first offset. -/
theorem groupLoop_stopBitAt {buf : Buffer} {a lim : Nat} {g : Groups}
    (h : groupLoop buf lim Config.varintMaxGroups ⟨0, a, 0⟩ = .ok g) : ∃ n, stopBitAt buf a n lim ∧ g.next = a + n := by
  obtain ⟨n, h1, h5, hnext, hend, hall, hlast⟩ := groupLoop_next _ _ _ h
  exact ⟨n, ⟨h1, h5, hend, hall, hlast⟩, hnext⟩

/-- dec_u32 ends one past a stop-bit integer (42_varint.md R170). -/
theorem decU32_stopBitAt {buf : Buffer} {a lim v p : Nat} (h : decU32 buf a lim = .ok (v, p)) :
    ∃ n, stopBitAt buf a n lim ∧ p = a + n := by
  obtain ⟨g, hg, hk⟩ := Res.bind_eq_ok h
  split at hk <;> cases hk
  exact groupLoop_stopBitAt hg

/-- dec_s32 ends one past a stop-bit integer (44_decimal.md R206). -/
theorem decS32_stopBitAt {buf : Buffer} {a lim p : Nat} {m : Int} (h : decS32 buf a lim = .ok (m, p)) :
    ∃ n, stopBitAt buf a n lim ∧ p = a + n := by
  obtain ⟨g, hg, hk⟩ := Res.bind_eq_ok h
  split at hk <;> cases hk
  exact groupLoop_stopBitAt hg

/-- An offset that is not past the bound fits a register. -/
theorem toNat_ofNat_of_le_bound {s : State} {p : Nat} (h : p ≤ s.bound) : (BitVec.ofNat 32 p).toNat = p := by
  have := s.regs.lim.isLt
  simp only [State.bound] at h
  rw [BitVec.toNat_ofNat, Nat.mod_eq_of_lt (by omega)]

section bodies

variable {s : State} {q : Regs}

theorem vu32Body_ok (h : vu32Body s = .ok q) :
    q.valHi = 0#32 ∧ ∃ n, stopBitAt s.buf s.cursor n s.bound ∧ q.off.toNat = s.cursor + n := by
  obtain ⟨⟨v, p⟩, hd, hq⟩ := Res.bind_eq_ok h
  obtain ⟨n, hn, rfl⟩ := decU32_stopBitAt hd
  have ⟨_, _, hend, _⟩ := hn
  cases hq
  exact ⟨rfl, n, hn, toNat_ofNat_of_le_bound hend⟩

theorem vu64Body_ok (h : vu64Body s = .ok q) :
    ∃ n m, stopBitAt s.buf s.cursor n s.bound ∧ stopBitAt s.buf (s.cursor + n) m s.bound ∧
      q.off.toNat = s.cursor + n + m := by
  obtain ⟨⟨v, p⟩, hd, h⟩ := Res.bind_eq_ok h
  obtain ⟨⟨w, p'⟩, hd', hq⟩ := Res.bind_eq_ok h
  obtain ⟨n, hn, rfl⟩ := decU32_stopBitAt hd
  obtain ⟨m, hm, rfl⟩ := decU32_stopBitAt hd'
  have ⟨_, _, hend, _⟩ := hm
  cases hq
  exact ⟨n, m, hn, hm, toNat_ofNat_of_le_bound hend⟩

theorem strBody_ok (h : strBody s = .ok q) :
    q.strOff.toNat + q.strLen.toNat = q.off.toNat ∧ q.off.toNat ≤ s.bound ∧
      ∃ p, (p = 1 ∨ p = 2) ∧ q.off.toNat = s.cursor + p + q.strLen.toNat := by
  obtain ⟨⟨len, p⟩, hd, h⟩ := Res.bind_eq_ok h
  obtain ⟨-, hp, hple⟩ := decStrLen_ok hd
  split at h
  · cases h
  · next hend =>
    cases h
    have hend : p + len ≤ s.bound := Nat.le_of_not_lt hend
    simp only [toNat_ofNat_of_le_bound hend, toNat_ofNat_of_le_bound hple,
      toNat_ofNat_of_le_bound (show len ≤ s.bound by omega)]
    exact ⟨trivial, hend, p - s.cursor, by omega, by omega⟩

theorem decBody_ok (h : decBody s = .ok q) :
    (∃ b : Byte, q.exp = b.signExtend 32) ∧
      ∃ n, stopBitAt s.buf s.cursor n s.bound ∧ q.off.toNat = s.cursor + n + 1 ∧ q.off.toNat ≤ s.bound := by
  obtain ⟨⟨m, p⟩, hd, h⟩ := Res.bind_eq_ok h
  obtain ⟨n, hn, rfl⟩ := decS32_stopBitAt hd
  split at h
  · cases h
  · next hend =>
    obtain ⟨b, -, hq⟩ := Res.bind_eq_ok h
    cases hq
    have hend : s.cursor + n + 1 ≤ s.bound := Nat.lt_of_not_le hend
    rw [toNat_ofNat_of_le_bound hend]
    exact ⟨⟨b, rfl⟩, n, hn, rfl, hend⟩

/-- The field extraction keeps tag, length and payload slice as given, and the short fields below their width. -/
theorem headerFields_ok {buf : Buffer} {f tag len : Nat} {r : Regs} (h : headerFields buf f tag len r = .ok q) :
    (q.hTag = BitVec.ofNat 32 tag ∧ q.hLen = BitVec.ofNat 32 len ∧ q.payOff = BitVec.ofNat 32 (f + 28) ∧
      q.payLim = BitVec.ofNat 32 (f + len - 4)) ∧
    q.hVer.toNat < 2 ^ 16 ∧ q.hFlags.toNat < 2 ^ 8 ∧ q.hRsvd.toNat < 2 ^ 8 := by
  obtain ⟨msgType, -, h⟩ := Res.bind_eq_ok h
  obtain ⟨timestamp, -, h⟩ := Res.bind_eq_ok h
  obtain ⟨seqNum, -, h⟩ := Res.bind_eq_ok h
  obtain ⟨version, hver, h⟩ := Res.bind_eq_ok h
  obtain ⟨flags, -, h⟩ := Res.bind_eq_ok h
  obtain ⟨reserved, -, h⟩ := Res.bind_eq_ok h
  have hver := memRead_lt hver
  have hflags := flags.isLt
  have hrsvd := reserved.isLt
  cases h
  refine ⟨⟨rfl, rfl, rfl, rfl⟩, ?_, ?_, ?_⟩ <;> simp only [BitVec.toNat_ofNat, BitVec.toNat_setWidth] <;> omega

theorem hdrBody_ok (h : hdrBody s = .ok q) :
    (q.hTag = s.magic ∧ 32 ≤ q.hLen.toNat ∧ s.cursor + q.hLen.toNat ≤ s.bound ∧ q.payOff.toNat = s.cursor + 28 ∧
      q.payLim.toNat = s.cursor + q.hLen.toNat - 4) ∧
    q.hVer.toNat < 2 ^ 16 ∧ q.hFlags.toNat < 2 ^ 8 ∧ q.hRsvd.toNat < 2 ^ 8 := by
  unfold hdrBody at h
  split at h
  · cases h
  next hroom =>
  obtain ⟨tag, -, h⟩ := Res.bind_eq_ok h
  split at h
  · cases h
  next htag =>
  obtain ⟨len, -, h⟩ := Res.bind_eq_ok h
  split at h
  · cases h
  next hmin =>
  split at h
  · cases h
  next hlen =>
  obtain ⟨⟨h1, h2, h3, h4⟩, hwidths⟩ := headerFields_ok h
  simp only [Config.headerSize, Config.minFrame, Config.trailerSize] at hroom hmin
  have hfit : s.cursor + len ≤ s.bound := by omega
  rw [h1, h2, h3, h4, not_not.mp htag, BitVec.ofNat_toNat, BitVec.setWidth_eq,
    toNat_ofNat_of_le_bound (show len ≤ s.bound by omega), toNat_ofNat_of_le_bound (show s.cursor + 28 ≤ s.bound by omega),
    toNat_ofNat_of_le_bound (show s.cursor + len - 4 ≤ s.bound by omega)]
  exact ⟨⟨rfl, by omega, hfit, rfl, rfl⟩, hwidths⟩

end bodies

end Sys2Proof.Machine
end

section
/-! PROOFS. The state (10_state.md): the invariant R40, the frame R21, R33, the cursor R34, independence of other registers
R36, reset R38. -/

namespace Sys2Proof.Safety

open Sys2Proof.Machine

/-! ### What a transaction can do -/

/-- A word that is none of the seven raises ILLEGAL_CMD; every other answer of a command is one of `exec_next`. -/
theorem issueCommand_next {w : Word} {s t : State} (h : issueCommand w s = .next t) :
    (∃ e : Err, e.code ∈ producedCodes ∧ t = raiseOutcome e s) ∨ ∃ i q, bodyOf i s = .ok q ∧ t = finishOk q s := by
  have hproduced : ∀ i, outcomesOf i ⊆ producedCodes := by intro i; cases i <;> decide
  unfold issueCommand at h
  split at h
  · next i _ =>
    obtain ⟨e, he, ht⟩ | ⟨-, q, hq, ht⟩ := exec_next h
    · exact .inl ⟨e, hproduced i he, ht⟩
    · exact .inr ⟨i, q, hq, ht⟩
  · cases h
    exact .inl ⟨.illegalCmd, by decide, rfl⟩

/-- A register write is a command, sets OFF or LIM, or is ignored (40_dispatch.md R132 to R134). -/
theorem hostWrite_next {idx : Nat} {v : Word} {s t : State} (h : hostWrite idx v s = .next t) :
    issueCommand v s = .next t ∨ t = writeOff v s ∨ t = writeLim v s ∨ t = s := by
  unfold hostWrite at h
  split at h
  · exact .inl h
  · cases h; exact .inr (.inl rfl)
  · cases h; exact .inr (.inr (.inl rfl))
  · cases h; exact .inr (.inr (.inr rfl))

/-! ### The invariant, operation by operation -/

/-- A word below 2^k has no bit from k up. -/
theorem ushiftRight_eq_zero_of_lt {w : Word} {k : Nat} (h : w.toNat < 2 ^ k) : w >>> k = 0#32 := by
  apply BitVec.eq_of_toNat_eq
  rw [BitVec.toNat_ushiftRight, Nat.shiftRight_eq_div_pow, Nat.div_eq_of_lt h, BitVec.toNat_ofNat, Nat.zero_mod]

/-- STATUS as the machine writes it has bits 31:8 zero (10_state.md R23). -/
theorem statusWord_ushiftRight (c : Byte) : statusWord c >>> 8 = 0#32 := by
  apply ushiftRight_eq_zero_of_lt
  have := c.isLt
  rw [statusWord, BitVec.toNat_setWidth]
  omega

theorem setWidth_statusWord (c : Byte) : (statusWord c).setWidth 8 = c := by
  rw [statusWord, BitVec.setWidth_setWidth_of_le _ (by omega), BitVec.setWidth_eq]

/-- A sign-extended byte is in -128..127 (10_state.md R40 (c)). -/
theorem toInt_signExtend_byte (b : Byte) : -128 ≤ (b.signExtend 32).toInt ∧ (b.signExtend 32).toInt ≤ 127 := by
  rw [BitVec.toInt_signExtend_of_le (by omega)]
  have hlow := BitVec.le_toInt b
  have hhigh := BitVec.toInt_lt (x := b)
  omega

section kept

variable {s : State}

theorem inv_raiseOutcome {e : Err} (h : Inv s) (he : e.code ∈ producedCodes) : Inv (raiseOutcome e s) :=
  { h with
    statusHigh := statusWord_ushiftRight e.code
    statusCode := by rwa [raiseOutcome_regs, setWidth_statusWord] }

/-- The registers that a command does not write keep their part of the invariant by the frame `bodyOf_ok_overlay`; those that
it writes get theirs from what its body delivers. -/
theorem inv_finishOk {i : Instr} {q : Regs} (h : Inv s) (hq : bodyOf i s = .ok q) : Inv (finishOk q s) := by
  have hframe := bodyOf_ok_overlay hq
  have hhigh : statusWord okCode >>> 8 = 0#32 := statusWord_ushiftRight okCode
  have hok : (statusWord okCode).setWidth 8 ∈ producedCodes := by decide
  cases i with
  | crc32 | crcv | vu32 | vu64 => rw [hframe]; exact { h with statusHigh := hhigh, statusCode := hok }
  | str =>
    obtain ⟨hend, -, -⟩ := strBody_ok hq
    have hoff := q.off.isLt
    rw [hframe]
    exact { h with statusHigh := hhigh, statusCode := hok, string := hend.trans_lt hoff }
  | dec =>
    obtain ⟨⟨b, hexp⟩, -⟩ := decBody_ok hq
    have hrange := toInt_signExtend_byte b
    rw [← hexp] at hrange
    rw [hframe]
    exact { h with statusHigh := hhigh, statusCode := hok, expRange := hrange }
  | hdr =>
    obtain ⟨⟨htag, hmin, -, hoff, hlim⟩, hver, hflags, hrsvd⟩ := hdrBody_ok hq
    have hslice : q.payLim.toNat + 32 = q.payOff.toNat + q.hLen.toNat := by omega
    rw [hframe]
    exact
      { h with
        statusHigh := hhigh
        statusCode := hok
        verHigh := ushiftRight_eq_zero_of_lt hver
        flagsHigh := ushiftRight_eq_zero_of_lt hflags
        rsvdHigh := ushiftRight_eq_zero_of_lt hrsvd
        header := .inr ⟨htag, hmin, hoff ▸ Nat.le_add_left 28 s.cursor, hslice⟩ }

/-- Reset establishes the invariant over any well-formed buffer (10_state.md R38). -/
theorem inv_resetInstance (hbuf : s.buf.wf = true) : Inv (resetInstance s) := by
  refine
    { statusHigh := ?_, statusCode := ?_, verHigh := ?_, flagsHigh := ?_, rsvdHigh := ?_, expRange := ?_
      header := .inl ⟨rfl, rfl, rfl, rfl⟩, string := ?_, buffer := hbuf } <;>
    rw [resetInstance_regs] <;> decide

theorem inv_hostRead {idx : Nat} (h : Inv s) : Inv (hostRead idx s) := { h with }

theorem inv_writeOff {v : Word} (h : Inv s) : Inv (writeOff v s) := { h with }

theorem inv_writeLim {v : Word} (h : Inv s) : Inv (writeLim v s) := { h with }

theorem inv_issueCommand {w : Word} {t : State} (h : Inv s) (ht : issueCommand w s = .next t) : Inv t := by
  obtain ⟨e, he, rfl⟩ | ⟨i, q, hq, rfl⟩ := issueCommand_next ht
  · exact inv_raiseOutcome h he
  · exact inv_finishOk h hq

theorem inv_hostTransact {x : HostTxn} {t : State} (h : Inv s) (ht : hostTransact x s = .next t) : Inv t := by
  cases x with
  | read idx => cases ht; exact inv_hostRead h
  | write idx v =>
    obtain hcmd | rfl | rfl | rfl := hostWrite_next ht
    · exact inv_issueCommand h hcmd
    · exact inv_writeOff h
    · exact inv_writeLim h
    · exact h
  | reset => cases ht; exact inv_resetInstance h.buffer

theorem inv_attachBuffer {bytes : List Byte} {t : State} (h : Inv s) (ht : attachBuffer bytes s = .next t) : Inv t := by
  unfold attachBuffer at ht
  split at ht
  · next hlen => cases ht; exact { h with buffer := Buffer.ofBytes_wf bytes hlen }
  · cases ht

theorem inv_perform {e : Event} {t : State} (h : Inv s) (ht : perform e s = .next t) : Inv t := by
  cases e with
  | host x => exact inv_hostTransact h ht
  | attach bytes => exact inv_attachBuffer h ht
  | disturbed w => cases ht

end kept

/-! ### The statements -/

/-- Settles O17: each event keeps the invariant, and the queue is no part of it. -/
theorem everyStepKeepsTheInvariant : Obligations.EveryStepKeepsTheInvariant := by
  intro s t h ht
  unfold step at ht
  split at ht
  · cases ht; exact h
  · next e rest _ =>
    have htaken : Inv { s with pending := rest } := { h with }
    exact inv_perform htaken ht

/-- Settles O18: the reset state is its own reset, with no buffer attached. -/
theorem theInvariantHoldsAtReset : Obligations.TheInvariantHoldsAtReset := inv_resetInstance (s := State.reset) reset_buf_wf

/-- Settles O19, from what the bodies of HDR, STR and VU32 deliver. -/
theorem immediatelyAfterOk : Obligations.ImmediatelyAfterOk := by
  intro s t hst
  refine ⟨fun h => ?_, fun h => ?_, fun h => ?_⟩ <;> obtain ⟨⟨-, hbuf⟩, q, hq, rfl⟩ := exec_next_of_ok h hst
  · obtain ⟨⟨htag, hmin, hfit, hoff, hlim⟩, -⟩ := hdrBody_ok hq
    simp only [State.cursor, State.bound, State.bufLen] at hfit hoff hlim hbuf
    simp only [finishOk_regs]
    exact ⟨htag, hmin, by omega, hoff, by omega, hlim, by omega, hbuf⟩
  · obtain ⟨hend, hle, -⟩ := strBody_ok hq
    have hlim : q.lim = s.regs.lim := by rw [bodyOf_ok_overlay hq, overlay_lim]
    rw [State.bound, ← hlim] at hle
    exact ⟨hend, hle⟩
  · exact (vu32Body_ok hq).1

/-- A write of STATUS changes what no other register reads. -/
theorem readReg_setStatus {r : Reg} (hr : r ≠ .status) (v : Word) (s : State) :
    readReg { s with regs := { s.regs with status := v } } r = readReg s r := by
  cases r with
  | status => exact absurd rfl hr
  | _ => rfl

/-- No command changes anything but registers. -/
theorem exec_keeps {i : Instr} {s t : State} (h : exec i s = .next t) :
    t.buf = s.buf ∧ t.magic = s.magic ∧ t.pending = s.pending ∧ t.answers = s.answers := by
  obtain ⟨e, -, rfl⟩ | ⟨-, q, -, rfl⟩ := exec_next h <;> exact ⟨rfl, rfl, rfl, rfl⟩

/-- Settles O21, by `overlay`'s reading of the table R21. -/
theorem commandFrame : Obligations.CommandFrame := by
  intro i s t h
  obtain ⟨hbuf, hrest⟩ := exec_keeps h
  refine ⟨fun r hr hw => ?_, fun a => by rw [hbuf], hbuf, hrest⟩
  obtain ⟨e, -, rfl⟩ | ⟨-, q, hq, rfl⟩ := exec_next h
  · exact readReg_setStatus hr (statusWord e.code) s
  · rw [bodyOf_ok_overlay hq, readReg_overlay, if_neg hw]
    exact readReg_setStatus hr (statusWord okCode) s

/-- Settles O22: an error outcome keeps OFF, the frame keeps it for CRC32, CRCV and HDR and keeps LIM for all, and the bodies
of the other four say how far it moves. -/
theorem cursorMovement : Obligations.CursorMovement := by
  intro i s t h
  refine ⟨fun hst => ?_, fun hst => ?_⟩
  · obtain ⟨e, -, rfl⟩ := exec_next_of_error h hst
    rfl
  obtain ⟨-, q, hq, rfl⟩ := exec_next_of_ok h hst
  have hframe := bodyOf_ok_overlay hq
  have hlim : q.lim.toNat = s.bound := by rw [hframe, overlay_lim]; rfl
  refine ⟨?_, ?_, ?_, ?_, ?_, ?_⟩
  · rintro (rfl | rfl | rfl) <;> rw [hframe] <;> rfl
  · change _ → s.cursor < q.off.toNat ∧ q.off.toNat ≤ q.lim.toNat
    rintro (rfl | rfl | rfl | rfl)
    · obtain ⟨-, n, ⟨hn, -, hend, -⟩, hoff⟩ := vu32Body_ok hq
      omega
    · obtain ⟨n, m, ⟨hn, -⟩, ⟨-, -, hend, -⟩, hoff⟩ := vu64Body_ok hq
      omega
    · obtain ⟨-, hend, p, hp, hoff⟩ := strBody_ok hq
      omega
    · obtain ⟨-, n, -, hoff, hend⟩ := decBody_ok hq
      omega
  · rintro rfl; exact (vu32Body_ok hq).2
  · rintro rfl
    have hmoved := vu64Body_ok hq
    exact hmoved
  · rintro rfl
    obtain ⟨-, -, hprefix⟩ := strBody_ok hq
    exact hprefix
  · rintro rfl
    obtain ⟨-, n, hn, hoff, -⟩ := decBody_ok hq
    exact ⟨n, hn, hoff⟩

/-- Settles O24: the window is the same, and by `bodyOf_withRegs` the body ends the same way and writes the same values. -/
theorem onlyOffAndLimMatter : Obligations.OnlyOffAndLimMatter := by
  intro i s t r hoff hlim h
  have hwin : State.windowValid { s with regs := r } ↔ s.windowValid := by
    simp only [State.windowValid, State.cursor, State.bound, State.bufLen, hoff, hlim]
  have hbody := bodyOf_withRegs i s hoff hlim
  rw [exec_eq_runCommand] at h ⊢
  obtain ⟨hw, rfl⟩ | ⟨hw, q, hq, rfl⟩ | ⟨hw, e, he, rfl⟩ := runCommand_next h
  · have hbad := runCommand_badWindow (body := bodyOf i) (mt hwin.mp hw)
    exact ⟨_, hbad, rfl, fun hst => absurd hst (statusWord_err_ne .badWindow), fun _ => rfl⟩
  · rw [hq, Res.bind_ok] at hbody
    refine ⟨_, runCommand_ok (hwin.mpr hw) hbody, rfl, fun _ x hx => ?_, fun hst => absurd rfl hst⟩
    rw [readReg_overlay, if_pos hx]
    exact readReg_congr rfl rfl x
  · rw [he, Res.bind_raise] at hbody
    exact ⟨_, runCommand_raise (hwin.mpr hw) hbody, rfl, fun hst => absurd hst (statusWord_err_ne e), fun _ => rfl⟩

/-- Reset registers read 0, and BUFLEN the length of the buffer (10_state.md R38). -/
theorem readReg_of_regs_reset {s : State} (h : s.regs = Regs.reset) (r : Reg) :
    readReg s r = if r = .buflen then s.buf.len else 0#32 := by
  cases r <;> simp [readReg, h, Regs.reset, statusCode, statusWord]

/-- Settles O1: both states have the reset registers. -/
theorem resetZeroesEveryRegister : Obligations.ResetZeroesEveryRegister :=
  ⟨readReg_of_regs_reset rfl, fun _ _ => ⟨_, rfl, readReg_of_regs_reset rfl, rfl⟩⟩

end Sys2Proof.Safety
end

section
/-! SUPPORT. What a command reads of the buffer (20_memory.md R63, R69), what a transaction of the host keeps (R61), and one
step of one instance among several (R74). -/

namespace Sys2Proof.Machine

open Sys2Proof.Safety

/-! ### Two buffers that read alike -/

/-- Equal parts with continuations that agree on what the part delivers. -/
theorem Res.bind_congr {α β : Type} {r r' : Res α} {k k' : α → Res β} (hr : r' = r) (hk : ∀ a, r = .ok a → k' a = k a) :
    r'.bind k' = r.bind k := by
  subst hr
  cases r' with
  | ok a => exact hk a rfl
  | raise e => rfl
  | fault f => rfl

/-- A read of any offset from `lo` up to `hi` ends the same way in both buffers. -/
def readAlike (buf other : Buffer) (lo hi : Nat) : Prop :=
  ∀ a, lo ≤ a → a < hi → readByte other a = readByte buf a

/-- Buffers of the same length with the same bytes there read alike. -/
theorem readAlike_of_byteAt {buf other : Buffer} {lo hi : Nat} (hlen : other.len = buf.len)
    (h : ∀ a, lo ≤ a → a < hi → other.byteAt a = buf.byteAt a) : readAlike buf other lo hi := by
  intro a hlo hhi
  rw [readByte, readByte, hlen, h a hlo hhi]

section alike

variable {buf other : Buffer} {lo hi : Nat} (h : readAlike buf other lo hi)

include h

theorem memRead_alike (n : Nat) : ∀ a, lo ≤ a → a + n ≤ hi → memRead other a n = memRead buf a n := by
  induction n with
  | zero => intro a _ _; rfl
  | succ n ih =>
    intro a hlo hhi
    rw [memRead, memRead, h a hlo (by omega), ih (a + 1) (by omega) (by omega)]

theorem crcRaw_alike (n : Nat) : ∀ c a, lo ≤ a → a + n ≤ hi → crcRaw other c a n = crcRaw buf c a n := by
  induction n with
  | zero => intro c a _ _; rfl
  | succ n ih =>
    intro c a hlo hhi
    exact Res.bind_congr (h a hlo (by omega)) fun b _ => ih (crcByte c b) (a + 1) (by omega) (by omega)

theorem crcRange_alike {l : Nat} (hl : lo ≤ l) (hhi : l ≤ hi) : crcRange other lo l = crcRange buf lo l := by
  rw [crcRange, crcRange, crcRaw_alike h _ _ lo (Nat.le_refl lo) (by omega)]

theorem groupLoop_alike {lim : Nat} (hlim : lim ≤ hi) (left : Nat) :
    ∀ g : Groups, lo ≤ g.next → groupLoop other lim left g = groupLoop buf lim left g := by
  induction left with
  | zero => intro g _; rfl
  | succ left ih =>
    intro g hlo
    rw [groupLoop, groupLoop]
    split
    · rfl
    · refine Res.bind_congr (h g.next hlo (by omega)) fun b _ => ?_
      rw [ih ⟨foldGroup g.value b, g.next + 1, g.count + 1⟩ (Nat.le_succ_of_le hlo)]

theorem decU32_alike {a lim : Nat} (hlo : lo ≤ a) (hlim : lim ≤ hi) : decU32 other a lim = decU32 buf a lim := by
  rw [decU32, decU32, groupLoop_alike h hlim _ ⟨0, a, 0⟩ hlo]

theorem decS32_alike {a lim : Nat} (hlo : lo ≤ a) (hlim : lim ≤ hi) : decS32 other a lim = decS32 buf a lim := by
  rw [decS32, decS32, groupLoop_alike h hlim _ ⟨0, a, 0⟩ hlo]

theorem decStrLen_alike {a lim : Nat} (hlo : lo ≤ a) (hlim : lim ≤ hi) : decStrLen other a lim = decStrLen buf a lim := by
  rw [decStrLen, decStrLen]
  split
  · rfl
  · refine Res.bind_congr (h a hlo (by omega)) fun b0 _ => ?_
    split
    · split
      · rfl
      · rw [h (a + 1) (by omega) (by omega)]
    · rfl

theorem headerFields_alike {f tag len : Nat} {r : Regs} (hlo : lo ≤ f) (hhi : f + 28 ≤ hi) :
    headerFields other f tag len r = headerFields buf f tag len r := by
  rw [headerFields, headerFields, memRead_alike h 4 (f + 4) (by omega) (by omega),
    memRead_alike h 8 (f + 12) (by omega) (by omega), memRead_alike h 4 (f + 20) (by omega) (by omega),
    memRead_alike h 2 (f + 24) (by omega) (by omega), h (f + 26) (by omega) (by omega), h (f + 27) (by omega) (by omega)]

end alike

/-- A body reads the buffer nowhere but from OFF up to LIM, for CRCV LIM + 4 (20_memory.md R69): over any other buffer of
the same length that reads alike there, it ends in the same way. -/
theorem bodyOf_withBuf (i : Instr) {s : State} {other : Buffer} (hlen : other.len = s.buf.len) (hwin : s.cursor ≤ s.bound)
    (h : readAlike s.buf other s.cursor (readEnd i s)) : bodyOf i { s with buf := other } = bodyOf i s := by
  cases i with
  | crc32 => exact Res.bind_congr (crcRange_alike h hwin (Nat.le_refl _)) fun _ _ => rfl
  | crcv =>
    have htrailer : (other.len.toNat < s.bound + 4) = (s.bufLen < s.bound + 4) := by rw [hlen, State.bufLen]
    exact ite_congr htrailer (fun _ => rfl) fun _ =>
      Res.bind_congr (crcRange_alike h hwin (Nat.le_add_right s.bound 4)) fun _ _ =>
        Res.bind_congr (memRead_alike h 4 s.bound hwin (Nat.le_refl _)) fun _ _ => rfl
  | vu32 => exact Res.bind_congr (decU32_alike h (Nat.le_refl _) (Nat.le_refl _)) fun _ _ => rfl
  | vu64 =>
    refine Res.bind_congr (decU32_alike h (Nat.le_refl _) (Nat.le_refl _)) fun high hhigh => ?_
    obtain ⟨-, hafter, -⟩ := decU32_ok hhigh
    exact Res.bind_congr (decU32_alike h hafter.le (Nat.le_refl _)) fun _ _ => rfl
  | str => exact Res.bind_congr (decStrLen_alike h (Nat.le_refl _) (Nat.le_refl _)) fun _ _ => rfl
  | dec =>
    refine Res.bind_congr (decS32_alike h (Nat.le_refl _) (Nat.le_refl _)) fun mantissa hmantissa => ?_
    obtain ⟨-, -, hafter, -⟩ := decS32_ok hmantissa
    exact ite_congr rfl (fun _ => rfl) fun hroom =>
      Res.bind_congr (h mantissa.2 hafter.le (Nat.lt_of_not_le hroom)) fun _ _ => rfl
  | hdr =>
    refine ite_congr rfl (fun _ => rfl) fun hroom => ?_
    have hfits : s.cursor + 28 ≤ readEnd .hdr s := Nat.add_le_of_le_sub' hwin (Nat.le_of_not_lt hroom)
    refine Res.bind_congr (memRead_alike h 4 s.cursor (Nat.le_refl _) (by omega)) fun tag _ => ?_
    refine ite_congr rfl (fun _ => rfl) fun _ => ?_
    refine Res.bind_congr (memRead_alike h 4 (s.cursor + 8) (by omega) (by omega)) fun len _ => ?_
    exact ite_congr rfl (fun _ => rfl) fun _ => ite_congr rfl (fun _ => rfl) fun _ =>
      headerFields_alike h (Nat.le_refl _) hfits

/-! ### MemRead and attached buffers -/

theorem leSum_succ (buf : Buffer) (a n : Nat) :
    leSum buf a (n + 1) = (buf.byteAt a).toNat + 256 * leSum buf (a + 1) n := by
  rw [leSum, Finset.sum_range_succ', leSum, Finset.mul_sum, Nat.add_comm]
  congr 1
  · simp
  · refine Finset.sum_congr rfl fun i _ => ?_
    rw [show a + (i + 1) = a + 1 + i by omega, pow_succ]
    ring

/-- A read inside the buffer is the little-endian sum (20_memory.md R63). -/
theorem memRead_eq_leSum {buf : Buffer} (n : Nat) : ∀ a, a + n ≤ buf.len.toNat → memRead buf a n = .ok (leSum buf a n) := by
  induction n with
  | zero => intro a _; rfl
  | succ n ih =>
    intro a h
    rw [memRead_succ_of_lt n (by omega), ih (a + 1) (by omega), leSum_succ, Res.bind_ok]

/-- BUF_LEN of an attached buffer is the number of its bytes. -/
theorem ofBytes_len_toNat {bytes : List Byte} (h : bytes.length < 2 ^ 32) : (Buffer.ofBytes bytes).len.toNat = bytes.length := by
  rw [Buffer.ofBytes, BitVec.toNat_ofNat, Nat.mod_eq_of_lt h]

theorem byteAt_ofBytes (bytes : List Byte) (i : Nat) : (Buffer.ofBytes bytes).byteAt i = bytes.getD i 0 := by
  have hread := read_ofBytes bytes 0 i
  rwa [Nat.zero_add] at hread

theorem attachBuffer_of_lt {bytes : List Byte} (h : bytes.length < 2 ^ 32) (s : State) :
    attachBuffer bytes s = .next { s with buf := Buffer.ofBytes bytes } := if_pos h

theorem attachBuffer_of_ge {bytes : List Byte} (h : 2 ^ 32 ≤ bytes.length) (s : State) :
    attachBuffer bytes s = .refused .bufferTooLong := if_neg (Nat.not_lt.mpr h)

/-! ### A transaction of the host -/

/-- A step takes the event it faces off the queue and performs it. -/
theorem step_facing (e : Event) (rest : List Event) (s : State) : step (facing e rest s) = perform e (taken rest s) := rfl

theorem issueCommand_keeps {w : Word} {s t : State} (h : issueCommand w s = .next t) :
    t.buf = s.buf ∧ t.magic = s.magic ∧ t.pending = s.pending := by
  obtain ⟨e, -, rfl⟩ | ⟨i, q, -, rfl⟩ := issueCommand_next h <;> exact ⟨rfl, rfl, rfl⟩

/-- No transaction changes the buffer, MAGIC or what else is pending (20_memory.md R61). -/
theorem hostTransact_keeps {x : HostTxn} {s t : State} (h : hostTransact x s = .next t) :
    t.buf = s.buf ∧ t.magic = s.magic ∧ t.pending = s.pending := by
  cases x with
  | read idx => cases h; exact ⟨rfl, rfl, rfl⟩
  | write idx v =>
    obtain hcmd | rfl | rfl | rfl := hostWrite_next h
    · exact issueCommand_keeps hcmd
    · exact ⟨rfl, rfl, rfl⟩
    · exact ⟨rfl, rfl, rfl⟩
    · exact ⟨rfl, rfl, rfl⟩
  | reset => cases h; exact ⟨rfl, rfl, rfl⟩

theorem bodyOf_clean (i : Instr) {s : State} (h : s.windowValid) : (bodyOf i s).clean := by
  cases i with
  | crc32 => exact crc32Body_clean h
  | crcv => exact crcvBody_clean h
  | vu32 => exact vu32Body_clean h
  | vu64 => exact vu64Body_clean h
  | str => exact strBody_clean h
  | dec => exact decBody_clean h
  | hdr => exact hdrBody_clean h

/-- Every command answers a next state (40_dispatch.md R142). -/
theorem exec_completes (i : Instr) (s : State) : ∃ t, exec i s = .next t := by
  rw [exec_eq_runCommand]
  exact runCommand_of_clean (bodyOf_clean i)

/-- Every transaction answers a next state. -/
theorem hostTransact_completes (x : HostTxn) (s : State) : ∃ t, hostTransact x s = .next t := by
  cases x with
  | read idx => exact ⟨_, rfl⟩
  | write idx v =>
    change ∃ t, hostWrite idx v s = .next t
    unfold hostWrite
    split
    · unfold issueCommand
      split
      · exact exec_completes _ s
      · exact ⟨_, rfl⟩
    · exact ⟨_, rfl⟩
    · exact ⟨_, rfl⟩
    · exact ⟨_, rfl⟩
  | reset => exact ⟨_, rfl⟩

/-! ### One instance among several -/

/-- Nothing but transactions of its host is pending at this instance. -/
def hostOnly (u : Sfpu) : Prop := ∀ e ∈ u.pending, ∃ t : HostTxn, e = .host t

/-- The instance after one step of its own; it stays as it is where that step is not defined. -/
def unitAfter (buf : Buffer) (u : Sfpu) : Sfpu :=
  match step (unitState buf u) with
  | .next t => unitOf t
  | .fault _ => u
  | .refused _ => u

/-- The instances after one step of instance `k`. -/
def unitsAfter (buf : Buffer) (us : List Sfpu) (k : Nat) : List Sfpu := us.modify k (unitAfter buf)

theorem step_unitState {buf : Buffer} {u : Sfpu} (h : hostOnly u) :
    ∃ t, step (unitState buf u) = .next t ∧ t.buf = buf ∧ t.pending = u.pending.tail := by
  obtain ⟨regs, magic, pending, answers⟩ := u
  cases pending with
  | nil => exact ⟨_, rfl, rfl, rfl⟩
  | cons e rest =>
    obtain ⟨x, rfl⟩ := h e List.mem_cons_self
    obtain ⟨t, ht⟩ := hostTransact_completes x (unitState buf ⟨regs, magic, rest, answers⟩)
    obtain ⟨hbuf, -, hpending⟩ := hostTransact_keeps ht
    exact ⟨t, ht, hbuf, hpending⟩

theorem hostOnly_unitAfter {buf : Buffer} {u : Sfpu} (h : hostOnly u) : hostOnly (unitAfter buf u) := by
  obtain ⟨t, ht, -, hpending⟩ := step_unitState (buf := buf) h
  intro e he
  rw [unitAfter, ht] at he
  change e ∈ t.pending at he
  rw [hpending] at he
  exact h e (List.mem_of_mem_tail he)

theorem hostOnly_unitsAfter {buf : Buffer} {us : List Sfpu} (h : ∀ u ∈ us, hostOnly u) (k : Nat) :
    ∀ u ∈ unitsAfter buf us k, hostOnly u := by
  intro u hu
  obtain ⟨j, hj⟩ := List.mem_iff_getElem?.mp hu
  rw [unitsAfter, List.getElem?_modify] at hj
  obtain ⟨v, hv, rfl⟩ := Option.map_eq_some_iff.mp hj
  have hhost := h v (List.mem_of_getElem? hv)
  split
  · exact hostOnly_unitAfter hhost
  · exact hhost

/-- A step of one instance leaves the buffer and every other instance as they were. -/
theorem stepUnit_hostOnly {buf : Buffer} {us : List Sfpu} {k : Nat} (hk : k < us.length) (h : ∀ u ∈ us, hostOnly u) :
    stepUnit k ⟨buf, us⟩ = .next ⟨buf, unitsAfter buf us k⟩ := by
  have hget : us[k]? = some us[k] := List.getElem?_eq_getElem hk
  obtain ⟨t, ht, hbuf, -⟩ := step_unitState (buf := buf) (h _ (List.getElem_mem hk))
  simp [stepUnit, unitsAfter, unitAfter, List.modify_eq_set_getElem?, hget, ht, hbuf]

/-- A schedule's run is the fold of its single steps (20_memory.md R74). -/
theorem runSchedule_hostOnly {buf : Buffer} (σ : List Nat) :
    ∀ us : List Sfpu, (∀ k ∈ σ, k < us.length) → (∀ u ∈ us, hostOnly u) →
      runSchedule σ ⟨buf, us⟩ = .next ⟨buf, σ.foldl (unitsAfter buf) us⟩ := by
  induction σ with
  | nil => intro us _ _; rfl
  | cons k σ ih =>
    intro us hσ hus
    have hrest : ∀ j ∈ σ, j < (unitsAfter buf us k).length := by
      intro j hj
      rw [unitsAfter, List.length_modify]
      exact hσ j (List.mem_cons_of_mem k hj)
    rw [runSchedule, stepUnit_hostOnly (hσ k List.mem_cons_self) hus]
    exact ih _ hrest (hostOnly_unitsAfter hus k)

/-- Steps of two instances commute: each changes its own instance only. -/
theorem unitsAfter_comm (buf : Buffer) (us : List Sfpu) (j k : Nat) :
    unitsAfter buf (unitsAfter buf us j) k = unitsAfter buf (unitsAfter buf us k) j := by
  by_cases hjk : j = k
  · rw [hjk]
  · exact List.modify_modify_ne _ _ us hjk

end Sys2Proof.Machine
end

section
/-! PROOFS. The buffer (20_memory.md): what a command may read R69, R67, that nothing writes it R61, MemRead R63, attached
buffers R72, R75, refused launches R60, R70, several instances on one buffer R74. -/

namespace Sys2Proof.Safety

open Sys2Proof.Machine

/-- Settles O23: the window is the same, and by `bodyOf_withBuf` the body ends the same way. -/
theorem onlyTheWindowMatters : Obligations.OnlyTheWindowMatters := by
  intro i s t other hlen hbytes h
  have hwin : State.windowValid { s with buf := other } ↔ s.windowValid := by
    simp only [State.windowValid, State.cursor, State.bound, State.bufLen, hlen]
  have hbody (hw : s.windowValid) := bodyOf_withBuf i hlen hw.1 (readAlike_of_byteAt hlen hbytes)
  rw [exec_eq_runCommand] at h ⊢
  obtain ⟨hw, rfl⟩ | ⟨hw, q, hq, rfl⟩ | ⟨hw, e, he, rfl⟩ := runCommand_next h
  · exact runCommand_badWindow (mt hwin.mp hw)
  · exact runCommand_ok (hwin.mpr hw) ((hbody hw).trans hq)
  · exact runCommand_raise (hwin.mpr hw) ((hbody hw).trans he)

/-- Settles O47: both schedules fold steps that commute, so their order does not matter. -/
theorem interleavingOfInstancesDoesNotMatter : Obligations.InterleavingOfInstancesDoesNotMatter := by
  intro ⟨buf, us⟩ σ τ hperm hσ hus
  have hrunσ := runSchedule_hostOnly (buf := buf) σ us hσ hus
  have hrunτ := runSchedule_hostOnly (buf := buf) τ us (fun k hk => hσ k (hperm.mem_iff.mpr hk)) hus
  have hfold : σ.foldl (unitsAfter buf) us = τ.foldl (unitsAfter buf) us :=
    hperm.foldl_eq' (fun j _ k _ vs => unitsAfter_comm buf vs j k) us
  exact ⟨by rw [hrunσ, hrunτ, hfold], _, hrunσ, rfl⟩

/-- Settles O20, transaction by transaction. -/
theorem noTransactionWritesTheBuffer : Obligations.NoTransactionWritesTheBuffer := by
  intro s t x rest h
  rw [step_facing] at h
  obtain ⟨hbuf, hmagic, hpending⟩ := hostTransact_keeps h
  exact ⟨hbuf, fun a => congrArg (readByte · a) hbuf, hmagic, hpending⟩

/-- Settles O43, by induction on the number of bytes. -/
theorem memReadIsLittleEndian : Obligations.MemReadIsLittleEndian := fun _ a n h => memRead_eq_leSum n a h

/-- Settles O44, from the length and the bytes of an attached buffer. -/
theorem attachedBufferIsSeenEntirely : Obligations.AttachedBufferIsSeenEntirely := by
  intro s bytes rest h
  have hlen := ofBytes_len_toNat h
  refine ⟨_, attachBuffer_of_lt h (taken rest s), rfl, hlen, Buffer.ofBytes_wf bytes h, fun i hi => ?_, fun a ha => ?_⟩
  · rw [← byteAt_ofBytes]
    exact readByte_of_lt (hlen.symm ▸ hi)
  · exact readByte_of_ge (hlen.symm ▸ ha)

/-- Settles O45: the one event has no meaning, the other is refused by the length of its buffer. -/
theorem launchesOutsideTheModelAreRefused : Obligations.LaunchesOutsideTheModelAreRefused :=
  fun s rest => ⟨fun _ => rfl, fun _ h => attachBuffer_of_ge h (taken rest s)⟩

end Sys2Proof.Safety
end

section
/-! SUPPORT. The encodings (30_encoding.md): the opcode assignment R91, R92, transfers of the host bus R93, the bytes an
encoder writes R100, R110 and what the decoders make of them, and lines of the host script R118. -/

namespace Sys2Proof

/-! ### Command words and host-bus transfers -/

/-- The opcode assignment loses nothing: a command comes from its own opcode only. -/
theorem decodeOpcode_eq_ok {op : Byte} {i : Instr} (h : decodeOpcode op = .ok i) : op = opcodeField (encode i) := by
  unfold decodeOpcode at h
  split at h <;> cases h <;> exact BitVec.eq_of_toNat_eq ‹op.toNat = _›

/-- The assigned opcodes are 0x01 to 0x07. -/
theorem exists_decodeOpcode_eq_ok (op : Byte) : (∃ i, decodeOpcode op = .ok i) ↔ 1 ≤ op.toNat ∧ op.toNat ≤ 7 := by
  refine ⟨fun ⟨i, hi⟩ => ?_, fun ⟨hlow, hhigh⟩ => ?_⟩
  · rw [decodeOpcode_eq_ok hi]
    cases i <;> decide
  · unfold decodeOpcode
    interval_cases op.toNat <;> exact ⟨_, rfl⟩

/-- A word selects a command exactly when ZERO is 0 and OPCODE is assigned. -/
theorem decode_eq_ok_iff {w : Word} {i : Instr} :
    decode w = .ok i ↔ zeroField w = 0#24 ∧ decodeOpcode (opcodeField w) = .ok i := by
  unfold decode
  split <;> simp [*]

/-- The register access of a transfer, by its byte address (30_encoding.md R93). -/
def accessOf : BusAccess → HostTxn
  | .read addr _ => .read (addr / 4)
  | .write addr _ v => .write (addr / 4) v

theorem decodeBus_eq_ok_iff (a : BusAccess) (t : HostTxn) : decodeBus a = .ok t ↔ a.wellFormed = true ∧ t = accessOf a := by
  cases a with
  | read addr bytes | write addr bytes v =>
    by_cases hbytes : bytes = 4 <;> by_cases haddr : addr % 4 = 0 <;>
      simp [decodeBus, BusAccess.wellFormed, accessOf, hbytes, haddr, eq_comm (a := t)]

theorem encodeBus_eq_some_iff (a : BusAccess) (t : HostTxn) : encodeBus t = some a ↔ a.wellFormed = true ∧ t = accessOf a := by
  refine ⟨fun h => ?_, fun ⟨hwf, ht⟩ => ?_⟩
  · cases t <;> cases h <;> simp [BusAccess.wellFormed, accessOf]
  · cases a with
    | read addr bytes | write addr bytes v =>
      obtain ⟨rfl, haddr⟩ : bytes = 4 ∧ addr % 4 = 0 := by simpa [BusAccess.wellFormed] using hwf
      rw [ht, accessOf, encodeBus, Nat.mul_div_cancel' (Nat.dvd_of_mod_eq_zero haddr)]

end Sys2Proof

namespace Sys2Proof.Machine

open Sys2Proof.Safety

/-! ### Bytes that stand in the buffer -/

section stands

variable {buf : Buffer} {a lim : Nat}

theorem standsAt_cons {b : Byte} {bytes : List Byte} (h : standsAt buf a lim (b :: bytes)) :
    buf.byteAt a = b ∧ standsAt buf (a + 1) lim bytes := by
  obtain ⟨hend, hall⟩ := h
  rw [List.length_cons] at hend hall
  refine ⟨hall 0 (by omega), by omega, fun i hi => ?_⟩
  rw [show a + 1 + i = a + (i + 1) by omega, hall (i + 1) (by omega), List.getD_cons_succ]

theorem standsAt_append {front back : List Byte} (h : standsAt buf a lim (front ++ back)) :
    standsAt buf a lim front ∧ standsAt buf (a + front.length) lim back := by
  obtain ⟨hend, hall⟩ := h
  rw [List.length_append] at hend hall
  refine ⟨⟨by omega, fun i hi => ?_⟩, by omega, fun i hi => ?_⟩
  · rw [hall i (by omega), List.getD_append _ _ _ _ hi]
  · rw [Nat.add_assoc, hall (front.length + i) (by omega), List.getD_append_right _ _ _ _ (by omega),
      Nat.add_sub_cancel_left]

@[simp] theorem leBytes_length (n : Nat) : ∀ v, (leBytes n v).length = n := by
  induction n with
  | zero => intro v; rfl
  | succ n ih => intro v; rw [leBytes, List.length_cons, ih]

/-- The little-endian sum gives back the integer whose bytes an encoder wrote, up to their number (20_memory.md R63). -/
theorem leSum_of_leBytes (n : Nat) : ∀ {a v : Nat}, standsAt buf a lim (leBytes n v) → leSum buf a n = v % 256 ^ n := by
  induction n with
  | zero => intro a v _; simp [leSum, Nat.mod_one]
  | succ n ih =>
    intro a v h
    obtain ⟨hlow, hrest⟩ := standsAt_cons h
    rw [leSum_succ, hlow, ih hrest, pow_succ', Nat.mod_mul, BitVec.toNat_ofNat, Nat.mod_mod]

end stands

/-- An integer of the width that its bytes have comes back whole. -/
theorem leSum_of_leBytes_toNat {buf : Buffer} {a lim n w : Nat} {x : BitVec w} (hw : w = 8 * n)
    (h : standsAt buf a lim (leBytes n x.toNat)) : leSum buf a n = x.toNat := by
  have hwidth : 256 ^ n = 2 ^ w := by rw [hw, pow_mul]; rfl
  rw [leSum_of_leBytes n h, hwidth, Nat.mod_eq_of_lt x.isLt]

/-! ### The frame header -/

/-- The layout of the header, field by field (30_encoding.md R100). -/
theorem standsAt_headerBytes {buf : Buffer} {f lim : Nat} {h : HeaderFields} (hs : standsAt buf f lim (headerBytes h)) :
    f + 28 ≤ lim ∧ leSum buf f 4 = h.startTag.toNat ∧ leSum buf (f + 4) 4 = h.msgType.toNat ∧
      leSum buf (f + 8) 4 = h.msgLength.toNat ∧ leSum buf (f + 12) 8 = h.timestamp.toNat ∧
      leSum buf (f + 20) 4 = h.seqNum.toNat ∧ leSum buf (f + 24) 2 = h.version.toNat ∧
      buf.byteAt (f + 26) = h.flags ∧ buf.byteAt (f + 27) = h.reserved := by
  have hend : f + 28 ≤ lim := hs.1
  simp only [headerBytes, List.append_assoc] at hs
  obtain ⟨htag, hs⟩ := standsAt_append hs
  obtain ⟨htype, hs⟩ := standsAt_append hs
  obtain ⟨hlen, hs⟩ := standsAt_append hs
  obtain ⟨htime, hs⟩ := standsAt_append hs
  obtain ⟨hseq, hs⟩ := standsAt_append hs
  obtain ⟨hver, hs⟩ := standsAt_append hs
  obtain ⟨hflags, hs⟩ := standsAt_cons hs
  obtain ⟨hrsvd, -⟩ := standsAt_cons hs
  simp only [leBytes_length, Nat.add_assoc, Nat.reduceAdd] at htype hlen htime hseq hver hflags hrsvd
  exact ⟨hend, leSum_of_leBytes_toNat rfl htag, leSum_of_leBytes_toNat rfl htype, leSum_of_leBytes_toNat rfl hlen,
    leSum_of_leBytes_toNat rfl htime, leSum_of_leBytes_toNat rfl hseq, leSum_of_leBytes_toNat rfl hver, hflags, hrsvd⟩

/-- The field extraction inside the buffer, with its sums (45_header.md R226). -/
theorem headerFields_eq {buf : Buffer} {f : Nat} (hend : f + 28 ≤ buf.len.toNat) (tag len : Nat) (r : Regs) :
    headerFields buf f tag len r = .ok { r with
      hTag := BitVec.ofNat 32 tag
      hType := BitVec.ofNat 32 (leSum buf (f + 4) 4)
      hLen := BitVec.ofNat 32 len
      hTsLo := BitVec.ofNat 32 (leSum buf (f + 12) 8 % 2 ^ 32)
      hTsHi := BitVec.ofNat 32 (leSum buf (f + 12) 8 / 2 ^ 32)
      hSeq := BitVec.ofNat 32 (leSum buf (f + 20) 4)
      hVer := BitVec.ofNat 32 (leSum buf (f + 24) 2)
      hFlags := (buf.byteAt (f + 26)).setWidth 32
      hRsvd := (buf.byteAt (f + 27)).setWidth 32
      payOff := BitVec.ofNat 32 (f + 28)
      payLim := BitVec.ofNat 32 (f + len - 4) } := by
  rw [headerFields, memRead_eq_leSum 4 (f + 4) (by omega), memRead_eq_leSum 8 (f + 12) (by omega),
    memRead_eq_leSum 4 (f + 20) (by omega), memRead_eq_leSum 2 (f + 24) (by omega), readByte_of_lt (by omega),
    readByte_of_lt (by omega)]
  rfl

/-- A frame that passes the checks of HDR (45_header.md R225, R228) has its fields extracted. -/
theorem hdrBody_of_checks {s : State} (hw : s.windowValid) (hroom : s.cursor + 28 ≤ s.bound)
    (htag : leSum s.buf s.cursor 4 = s.magic.toNat) (hmin : 32 ≤ leSum s.buf (s.cursor + 8) 4)
    (hfit : leSum s.buf (s.cursor + 8) 4 ≤ s.bound - s.cursor) :
    hdrBody s = headerFields s.buf s.cursor s.magic.toNat (leSum s.buf (s.cursor + 8) 4) s.regs := by
  obtain ⟨-, hbuf⟩ := hw
  simp only [State.bufLen] at hbuf
  rw [hdrBody, if_neg (by simp only [Config.headerSize]; omega), memRead_eq_leSum 4 s.cursor (by omega), Res.bind_ok,
    if_neg (not_not.mpr htag), memRead_eq_leSum 4 (s.cursor + 8) (by omega), Res.bind_ok,
    if_neg (show ¬ _ < Config.minFrame from Nat.not_lt.mpr hmin), if_neg (Nat.not_lt.mpr hfit), htag]

/-- The two words of a 64-bit field, low and high (45_header.md R226). -/
theorem ofNat_low_word (x : BitVec 64) : BitVec.ofNat 32 (x.toNat % 2 ^ 32) = x.setWidth 32 := by
  apply BitVec.eq_of_toNat_eq
  simp

theorem ofNat_high_word (x : BitVec 64) : BitVec.ofNat 32 (x.toNat / 2 ^ 32) = (x >>> 32).setWidth 32 := by
  apply BitVec.eq_of_toNat_eq
  simp [Nat.shiftRight_eq_div_pow]

/-! ### String lengths -/

section strlen

variable {buf : Buffer} {a lim : Nat} (hlim : lim ≤ buf.len.toNat)

include hlim

theorem decStrLen_short (ha : a < lim) (hstop : ¬ moreAt buf a) :
    decStrLen buf a lim = .ok ((buf.byteAt a).toNat, a + 1) := by
  have hmask : (buf.byteAt a).toNat &&& 0x7F = (buf.byteAt a).toNat :=
    (Nat.and_two_pow_sub_one_eq_mod _ 7).trans (Nat.mod_eq_of_lt (Nat.lt_of_not_le hstop))
  rw [decStrLen, if_neg (Nat.not_le.mpr ha), readByte_of_lt (by omega), Res.bind_ok,
    if_neg (mt (continues_iff _).mp hstop), hmask]

theorem decStrLen_long (ha : a + 1 < lim) (hmore : moreAt buf a) :
    decStrLen buf a lim = .ok (((buf.byteAt a).toNat - 128) * 256 + (buf.byteAt (a + 1)).toNat, a + 2) := by
  have hmask : (buf.byteAt a).toNat &&& 0x7F = (buf.byteAt a).toNat - 128 := by
    have hbyte := (buf.byteAt a).isLt
    have hmod : (buf.byteAt a).toNat &&& 0x7F = (buf.byteAt a).toNat % 128 := Nat.and_two_pow_sub_one_eq_mod _ 7
    omega
  rw [decStrLen, if_neg (by omega), readByte_of_lt (by omega), Res.bind_ok, if_pos ((continues_iff _).mpr hmore),
    if_neg (Nat.not_le.mpr ha), readByte_of_lt (by omega), Res.bind_ok, ← hmask]
  rfl

/-- The prefix decoder gives back the length that an encoder wrote (43_string.md R191). -/
theorem decStrLen_spellStrLen {len : Nat} (hlen : len ≤ 32767) (hs : standsAt buf a lim (spellStrLen len)) :
    decStrLen buf a lim = .ok (len, a + (spellStrLen len).length) := by
  unfold spellStrLen at hs ⊢
  split at hs
  · next hshort =>
    obtain ⟨hb, -⟩ := standsAt_cons hs
    have hval : (buf.byteAt a).toNat = len := by rw [hb, BitVec.toNat_ofNat]; omega
    rw [if_pos hshort, decStrLen_short hlim hs.1 (by omega), hval]
    rfl
  · next hlong =>
    obtain ⟨hb0, hs1⟩ := standsAt_cons hs
    obtain ⟨hb1, -⟩ := standsAt_cons hs1
    have hval0 : (buf.byteAt a).toNat = 128 + len / 256 := by rw [hb0, BitVec.toNat_ofNat]; omega
    have hval1 : (buf.byteAt (a + 1)).toNat = len % 256 := by rw [hb1, BitVec.toNat_ofNat]; omega
    rw [if_neg hlong, decStrLen_long hlim hs.1 (by omega), hval0, hval1, Nat.add_sub_cancel_left, Nat.div_add_mod']
    rfl

end strlen

/-- A prefix whose content fits in the window (43_string.md R192). -/
theorem strBody_of_decStrLen {s : State} {len p : Nat} (h : decStrLen s.buf s.cursor s.bound = .ok (len, p))
    (hfit : p + len ≤ s.bound) :
    strBody s = .ok { s.regs with
      strOff := BitVec.ofNat 32 p, strLen := BitVec.ofNat 32 len, off := BitVec.ofNat 32 (p + len) } := by
  rw [strBody, h, Res.bind_ok, if_neg (Nat.not_lt.mpr hfit)]

/-! ### The host script -/

/-- The instance after a host write of OFF or LIM. -/
def writeSetReg : SetReg → Word → State → State
  | .off => writeOff
  | .lim => writeLim

/-- The pair of lines that most pseudo-instructions are made of (30_encoding.md R119): read a register, then set OFF or LIM
from what has been read. -/
theorem runLines_get_set {d : SetReg} {r : Reg} {v : ScriptExpr} {x : Word} {h : ScriptState} (ls : List ScriptLine)
    (hv : evalExpr ((r, readReg h.sfpu r) :: h.got) v = .ok x) :
    runLines (.get r :: .set d v :: ls) h =
      runLines ls ⟨(r, readReg h.sfpu r) :: h.got, writeSetReg d x (hostRead (regIdx r) h.sfpu)⟩ := by
  have hget : runLine (.get r) h = .next ⟨(r, readReg h.sfpu r) :: h.got, hostRead (regIdx r) h.sfpu⟩ := by
    rw [← hostReadValue_regIdx r h.sfpu]
    rfl
  have hset : runLine (.set d v) ⟨(r, readReg h.sfpu r) :: h.got, hostRead (regIdx r) h.sfpu⟩ =
      .next ⟨(r, readReg h.sfpu r) :: h.got, writeSetReg d x (hostRead (regIdx r) h.sfpu)⟩ := by
    rw [runLine, lineTxn, hv]
    cases d <;> rfl
  rw [runLines, hget]
  dsimp only
  rw [runLines, hset]

/-- The value just read is what `$r` stands for. -/
theorem evalExpr_got_head (r : Reg) (v : Word) (got : List (Reg × Word)) : evalExpr ((r, v) :: got) (.got r) = .ok v := by
  simp [evalExpr, lastRead]

/-- A command line runs the command. -/
theorem runLines_issue {i : Instr} {h : ScriptState} {t : State} (ht : exec i h.sfpu = .next t) :
    runLines [.issue i] h = .next ⟨h.got, t⟩ := by
  rw [runLines, runLine, lineTxn]
  dsimp only
  rw [hostTransact_command, ht]
  rfl

end Sys2Proof.Machine
end

section
/-! PROOFS. The encodings (30_encoding.md): command words R91, R92, host-bus transfers R93, the header R100, R101, string
lengths R110, the pseudo-instructions R119. -/

namespace Sys2Proof.Safety

open Sys2Proof.Machine

/-- Settles O41: the header passes the checks of HDR, and each sum is the field whose bytes it adds up. -/
theorem hdrUndoesTheLayout : Obligations.HdrUndoesTheLayout := by
  intro s h hw hs htag hmin hfit
  obtain ⟨hroom, hstart, htype, hlen, htime, hseq, hver, hflags, hrsvd⟩ := standsAt_headerBytes hs
  rw [← hlen] at hmin hfit
  have hbody : hdrBody s = _ :=
    (hdrBody_of_checks hw hroom (htag ▸ hstart) hmin hfit).trans (headerFields_eq (hroom.trans hw.2) _ _ _)
  rw [htype, hlen, htime, hseq, hver, hflags, hrsvd, ← htag] at hbody
  simp only [ofNat_low_word, ofNat_high_word, BitVec.ofNat_toNat, BitVec.setWidth_eq] at hbody
  exact runCommand_ok hw hbody

/-- Settles O9: a command comes from its own opcode only, and a word is ZERO and OPCODE. -/
theorem decodeExactlyUndoesEncode : Obligations.DecodeExactlyUndoesEncode := by
  refine ⟨fun i _ => decode_eq_ok_iff.mpr (encode_fields i), fun w i h => ?_, fun w => ?_⟩
  · obtain ⟨hzero, hop⟩ := decode_eq_ok_iff.mp h
    rw [word_of_fields w, word_of_fields (encode i), hzero, (encode_fields i).1, decodeOpcode_eq_ok hop]
  · simp only [decode_eq_ok_iff, exists_and_left, exists_decodeOpcode_eq_ok, commandWordWellFormed, Bool.and_eq_true,
      beq_iff_eq, decide_eq_true_eq, and_assoc]

/-- Settles O8: each word is its command's, as `encode` gives it. -/
theorem theSevenWordsDecode : Obligations.TheSevenWordsDecode := by
  have hword (i : Instr) : decode (encode i) = .ok i := decode_eq_ok_iff.mpr (encode_fields i)
  exact ⟨hword .crc32, hword .crcv, hword .vu32, hword .vu64, hword .str, hword .dec, hword .hdr⟩

/-- Settles O10: decoding and encoding both relate a well-formed transfer to its register access. -/
theorem busEncodingAgrees : Obligations.BusEncodingAgrees := by
  have hagree (a : BusAccess) (t : HostTxn) : decodeBus a = .ok t ↔ encodeBus t = some a :=
    (decodeBus_eq_ok_iff a t).trans (encodeBus_eq_some_iff a t).symm
  refine ⟨fun _ => (hagree _ _).mpr rfl, fun _ _ => (hagree _ _).mpr rfl, hagree, fun a => ?_⟩
  simp only [decodeBus_eq_ok_iff, exists_and_left, exists_eq, and_true]

/-- Settles O37: the prefix decoder gives the length back, and no offset wraps. -/
theorem strUndoesThePrefix : Obligations.StrUndoesThePrefix := by
  intro s len hw hlen hs hfit
  have hprefix := decStrLen_spellStrLen hw.2 hlen hs
  refine ⟨_, runCommand_ok hw (strBody_of_decStrLen hprefix hfit), rfl, ?_, ?_, ?_⟩ <;>
    exact toNat_ofNat_of_le_bound (s := s) (by omega)

/-- Settles O46: every expansion but WINDOW's is made of lines that read a register and set OFF or LIM from it; CHECK then
issues CRCV, which always completes. -/
theorem pseudoInstructionsMoveTheWindow : Obligations.PseudoInstructionsMoveTheWindow := by
  intro h
  refine ⟨fun a b => ⟨_, rfl, rfl⟩, fun d r => ?_, ?_, fun n => ?_, ?_, fun f => ?_⟩
  · refine ⟨_, runLines_get_set [] (evalExpr_got_head r _ _), ?_⟩
    cases d <;> rfl
  · refine ⟨_, (runLines_get_set _ (evalExpr_got_head _ _ _)).trans (runLines_get_set [] (evalExpr_got_head _ _ _)), rfl⟩
  · exact ⟨_, runLines_get_set [] rfl, rfl⟩
  · obtain ⟨t, ht⟩ := exec_completes .crcv (writeLim h.sfpu.regs.payLim (hostRead (regIdx .payLim) h.sfpu))
    exact ⟨_, (runLines_get_set _ (evalExpr_got_head _ _ _)).trans (runLines_issue ht), ht⟩
  · exact ⟨_, (runLines_get_set _ rfl).trans (runLines_get_set [] (evalExpr_got_head _ _ _)), rfl⟩

end Sys2Proof.Safety
end

section
/-! SUPPORT. Dispatch (40_dispatch.md): registers by index R131, ignored writes R133, command words R134, R135, and which
commands can raise BAD_WINDOW on a valid window R136. -/

namespace Sys2Proof.Machine

open Sys2Proof.Safety

/-! ### Registers by index -/

/-- An index names at most the register whose index it is. -/
theorem regOfIdx_eq_some {idx : Nat} {r : Reg} (h : regOfIdx idx = some r) : idx = regIdx r := by
  unfold regOfIdx at h
  split at h <;> cases h <;> rfl

/-- Only indices 23 and above are unmapped (10_state.md R39). -/
theorem regOfIdx_eq_none {idx : Nat} (h : regOfIdx idx = none) : 23 ≤ idx := by
  by_contra hlt
  interval_cases idx <;> cases h

/-- STATUS reads with bits 31:8 masked (10_state.md R23). -/
theorem statusWord_statusCode_eq_and (v : Word) : statusWord (statusCode v) = v &&& 0xFF#32 := by
  apply BitVec.eq_of_toNat_eq
  have hmask : v.toNat &&& 255 = v.toNat % 256 := Nat.and_two_pow_sub_one_eq_mod v.toNat 8
  simp [statusWord, statusCode, hmask]
  omega

theorem registerFile_getD_regIdx (r : Reg) (s : State) : (registerFile s).getD (regIdx r) 0#32 = readReg s r := by
  cases r with
  | status => exact (statusWord_statusCode_eq_and s.regs.status).symm
  | _ => rfl

/-- HostRead returns the entry of the register file, and 0 where there is none (40_dispatch.md R131). -/
theorem hostReadValue_eq_getD (idx : Nat) (s : State) : hostReadValue idx s = (registerFile s).getD idx 0#32 := by
  cases hidx : regOfIdx idx with
  | some r => rw [regOfIdx_eq_some hidx, hostReadValue_regIdx, registerFile_getD_regIdx]
  | none =>
    rw [List.getD_eq_default _ _ (regOfIdx_eq_none hidx)]
    simp only [hostReadValue, hidx]
    rfl

/-- A write of any register but CMD, OFF and LIM is ignored (40_dispatch.md R133). -/
theorem hostWrite_of_ignored {idx : Nat} (h : idx = 1 ∨ 4 ≤ idx) (v : Word) (s : State) : hostWrite idx v s = .next s := by
  have hidx {r : Reg} (hr : regOfIdx idx = some r) : regIdx r = 1 ∨ 4 ≤ regIdx r := regOfIdx_eq_some hr ▸ h
  unfold hostWrite
  split
  · next hr => exact absurd (hidx hr) (by decide)
  · next hr => exact absurd (hidx hr) (by decide)
  · next hr => exact absurd (hidx hr) (by decide)
  · rfl

/-! ### Command words -/

theorem issueCommand_of_decode {w : Word} {i : Instr} (h : decode w = .ok i) (s : State) : issueCommand w s = exec i s := by
  simp only [issueCommand, h]

/-- A word that is no command's raises ILLEGAL_CMD (40_dispatch.md R135). -/
theorem issueCommand_illegal {w : Word} (h : ∀ i, w ≠ encode i) (s : State) :
    issueCommand w s = .next (raiseOutcome .illegalCmd s) := by
  obtain ⟨-, hencode, -⟩ := decodeExactlyUndoesEncode
  unfold issueCommand
  split
  · next i hi => exact absurd (hencode w i hi) (h i)
  · rfl

/-- The command words lie in 0x01 to 0x07 (30_encoding.md R91). -/
theorem encode_range (i : Instr) :
    encode i >>> 8 = 0#32 ∧ (encode i).setWidth 8 ≠ 0x00#8 ∧ ((encode i).setWidth 8).toNat < 0x08 := by
  cases i <;> decide

/-! ### BAD_WINDOW -/

/-- Each error outcome has its own STATUS (60_exceptions.md R281). -/
theorem statusWord_code_injective : Function.Injective fun e : Err => statusWord e.code := fun e e' h => by
  have hread := congrArg errOfStatus h
  rwa [errOfStatus_err, errOfStatus_err, Option.some.injEq] at hread

/-- A check that raises `e`, before a part that raises within the same codes. -/
theorem Res.raisesIn_check {α : Type} {codes : List Byte} {p : Prop} [Decidable p] {e : Err} {r : Res α}
    (he : e.code ∈ codes) (hr : r.raisesIn codes) : (if p then .raise e else r).raisesIn codes := by
  split
  · exact he
  · exact hr

/-- No body but CRCV's raises BAD_WINDOW: it is left to the window check before the body (40_dispatch.md R136). -/
theorem bodyOf_raisesIn_erase_badWindow {i : Instr} (hi : i ≠ .crcv) (s : State) :
    (bodyOf i s).raisesIn ((outcomesOf i).erase Err.badWindow.code) := by
  cases i with
  | crc32 => exact Res.raisesIn_bind (crcRange_raisesIn _ _) fun _ => trivial
  | crcv => exact absurd rfl hi
  | vu32 => exact Res.raisesIn_bind (decU32_raisesIn _ _ (by decide) (by decide)) fun _ => trivial
  | vu64 =>
    exact Res.raisesIn_bind (decU32_raisesIn _ _ (by decide) (by decide)) fun _ =>
      Res.raisesIn_bind (decU32_raisesIn _ _ (by decide) (by decide)) fun _ => trivial
  | str =>
    exact Res.raisesIn_bind (decStrLen_raisesIn _ _ (by decide)) fun _ => Res.raisesIn_check (by decide) trivial
  | dec =>
    exact Res.raisesIn_bind (decS32_raisesIn _ _ (by decide) (by decide)) fun _ =>
      Res.raisesIn_check (by decide) (Res.raisesIn_bind (readByte_raisesIn _) fun _ => trivial)
  | hdr =>
    exact Res.raisesIn_check (by decide) <| Res.raisesIn_bind (memRead_raisesIn _ _) fun _ =>
      Res.raisesIn_check (by decide) <| Res.raisesIn_bind (memRead_raisesIn _ _) fun _ =>
      Res.raisesIn_check (by decide) <| Res.raisesIn_check (by decide) (headerFields_raisesIn _ _ _ _)

theorem bodyOf_ne_badWindow {i : Instr} (hi : i ≠ .crcv) (s : State) : bodyOf i s ≠ .raise .badWindow := by
  intro h
  have hcode := bodyOf_raisesIn_erase_badWindow hi s
  rw [h] at hcode
  have hnodup : (outcomesOf i).Nodup := by cases i <;> decide
  exact hnodup.not_mem_erase hcode

/-- On a valid window no command but CRCV answers BAD_WINDOW. -/
theorem exec_status_ne_badWindow {i : Instr} {s t : State} (hi : i ≠ .crcv) (hw : s.windowValid) (h : exec i s = .next t) :
    t.regs.status ≠ statusWord Err.badWindow.code := by
  rw [exec_eq_runCommand] at h
  obtain ⟨hbad, -⟩ | ⟨-, q, -, rfl⟩ | ⟨-, e, he, rfl⟩ := runCommand_next h
  · exact absurd hw hbad
  · exact (statusWord_err_ne .badWindow).symm
  · intro hst
    have hbad : e = .badWindow := statusWord_code_injective hst
    exact bodyOf_ne_badWindow hi s (hbad ▸ he)

/-! ### Steps -/

/-- A step takes the oldest pending event off the queue and performs it (40_dispatch.md R130). -/
theorem step_of_pending {s : State} {e : Event} {rest : List Event} (h : s.pending = e :: rest) :
    step s = perform e (taken rest s) := by
  simp only [step, h, taken]

end Sys2Proof.Machine
end

section
/-! PROOFS. Dispatch (40_dispatch.md): register access R131 to R133, command words R134, R135, the window check R136, totality
R142. -/

namespace Sys2Proof.Safety

open Sys2Proof.Machine

/-- Settles O2: the value is the register file's, which the queue is no part of. -/
theorem hostReadReturnsTheRegister : Obligations.HostReadReturnsTheRegister := by
  intro s rest idx
  have hvalue : hostReadValue idx (taken rest s) = (registerFile s).getD idx 0#32 := hostReadValue_eq_getD idx (taken rest s)
  rw [step_facing, ← hvalue]
  rfl

/-- Settles O5: every command word is in the range that the hypothesis leaves. -/
theorem illegalWordGivesIllegalCmd : Obligations.IllegalWordGivesIllegalCmd := by
  intro s rest w hw
  refine issueCommand_illegal (fun i hi => ?_) (taken rest s)
  subst hi
  obtain ⟨hzero, hlow, hhigh⟩ := encode_range i
  obtain h | h | h := hw
  · exact h hzero
  · exact hlow h
  · exact absurd hhigh (Nat.not_lt.mpr h)

/-- Settles O11: the window check comes before every body, and no body but CRCV's raises BAD_WINDOW. -/
theorem badWindowExactlyWhenIllFormed : Obligations.BadWindowExactlyWhenIllFormed := by
  intro i s
  refine ⟨fun hbad => ?_, fun hoff hlim hi => ?_⟩
  · rw [exec_eq_runCommand]
    exact runCommand_badWindow hbad
  · obtain ⟨t, ht⟩ := exec_completes i s
    exact ⟨t, ht, exec_status_ne_badWindow hi ⟨hoff, hlim⟩ ht⟩

/-- Settles O12, event by event: a transaction of the host completes, and the other two events say when they are refused. -/
theorem everyStepGoesOnButRefusedLaunches : Obligations.EveryStepGoesOnButRefusedLaunches := by
  intro s
  cases hpending : s.pending with
  | nil => exact .inl ⟨s, by simp only [step, hpending]⟩
  | cons e rest =>
    rw [step_of_pending hpending]
    cases e with
    | host x => exact .inl (hostTransact_completes x (taken rest s))
    | attach bytes =>
      by_cases hlen : bytes.length < 2 ^ 32
      · exact .inl ⟨_, attachBuffer_of_lt hlen (taken rest s)⟩
      · have hlong := Nat.le_of_not_lt hlen
        exact .inr (.inl ⟨bytes, rest, rfl, hlong, attachBuffer_of_ge hlong (taken rest s)⟩)
    | disturbed w => exact .inr (.inr ⟨w, rest, rfl, rfl⟩)

/-- Settles O13: no body faults on a valid window. -/
theorem everyCommandHasAPostState : Obligations.EveryCommandHasAPostState := exec_completes

/-- Settles O3: indices 2 and 3 are OFF and LIM. -/
theorem hostWriteSetsOffAndLim : Obligations.HostWriteSetsOffAndLim := fun _ _ _ => ⟨rfl, rfl⟩

/-- Settles O4: the index is none of CMD, OFF and LIM. -/
theorem hostWriteElsewhereIsIgnored : Obligations.HostWriteElsewhereIsIgnored :=
  fun s rest _ v h => hostWrite_of_ignored h v (taken rest s)

/-- Settles O6: index 0 is CMD, and a word that decodes runs its command. -/
theorem stepRunsTheDecodedCommand : Obligations.StepRunsTheDecodedCommand :=
  fun s rest _ _ h => issueCommand_of_decode h (taken rest s)

end Sys2Proof.Safety
end

section
/-! SUPPORT. The checksum: bit steps and the bits they take in (41_crc.md R151, R152), the raw register as a fold over the
bytes of a range (R153), and what the bodies of CRC32 and CRCV deliver (R156, R157). -/

namespace Sys2Proof.Machine

open Sys2Proof.Safety

/-! ### Bit steps and byte steps -/

theorem getLsbD_zero_iff (c : Word) : c.getLsbD 0 = true ↔ c &&& 1#32 = 1#32 := by
  rw [BitVec.and_one_eq_setWidth_ofBool_getLsbD]
  cases c.getLsbD 0 <;> decide

theorem crcByte_eq_iterate (c : Word) (b : Byte) : crcByte c b = crcBit^[8] (c ^^^ b.setWidth 32) := rfl

/-- One step of the bit-serial form: bit `i` of the byte is taken in (41_crc.md R152). -/
def crcSerialStep (b : Byte) (c : Word) (i : Nat) : Word :=
  if (c.getLsbD 0 ^^ b.getLsbD i) then (c >>> 1) ^^^ Config.crcPoly else c >>> 1

/-- A bit step looks only at the lowest bit of what was taken in; the rest moves down by one place. -/
theorem crcBit_xor {b : Byte} {w : Word} {i : Nat} (h : w.getLsbD 0 = b.getLsbD i) (c : Word) :
    crcBit (c ^^^ w) = crcSerialStep b c i ^^^ (w >>> 1) := by
  rw [crcBit, crcSerialStep, BitVec.getLsbD_xor, h, BitVec.ushiftRight_xor_distrib]
  split
  · ac_rfl
  · rfl

/-- Taking in a whole word at once is taking in its low bits one by one, with its other bits still to come. -/
theorem crcBit_iterate_xor {b : Byte} {w : Word} (c : Word) :
    ∀ n, (∀ i < n, w.getLsbD i = b.getLsbD i) →
      crcBit^[n] (c ^^^ w) = (List.range n).foldl (crcSerialStep b) c ^^^ (w >>> n)
  | 0, _ => by simp
  | n + 1, h => by
    have hbit : (w >>> n).getLsbD 0 = b.getLsbD n := by simpa using h n n.lt_succ_self
    rw [Function.iterate_succ_apply', crcBit_iterate_xor c n fun i hi => h i (Nat.lt_succ_of_lt hi), crcBit_xor hbit,
      List.range_succ, List.foldl_append, List.foldl_cons, List.foldl_nil, BitVec.shiftRight_add]

theorem crcBit_iterate_eight_xor (c w : Word) : crcBit^[8] (c ^^^ w) = crcSerial c (w.setWidth 8) ^^^ (w >>> 8) :=
  crcBit_iterate_xor c 8 fun i hi => by simp [hi]

/-- The two formulations of the byte step agree (41_crc.md R152). -/
theorem crcByte_eq_crcSerial (c : Word) (b : Byte) : crcByte c b = crcSerial c b := by
  have hlow : (b.setWidth 32).setWidth 8 = b := by simp
  have hrest : b.setWidth 32 >>> 8 = 0#32 := by ext i hi; simp
  rw [crcByte_eq_iterate, crcBit_iterate_eight_xor, hlow, hrest, BitVec.xor_zero]

/-- The bit that a bit step shifts out comes back as the highest bit, since the polynomial's highest bit is set. -/
theorem getLsbD_crcBit (c : Word) : (crcBit c).getLsbD 31 = c.getLsbD 0 := by
  unfold crcBit
  split
  · next h => simp [h, Config.crcPoly]
  · next h => simp [(Bool.not_eq_true _).mp h, -BitVec.getLsbD_eq_getElem]

/-- A word is its lowest bit and the rest. -/
theorem word_eq_of_ushiftRight_eq {c d : Word} (hlow : c.getLsbD 0 = d.getLsbD 0) (hrest : c >>> 1 = d >>> 1) : c = d := by
  apply BitVec.eq_of_getLsbD_eq
  rintro (_ | i) -
  · exact hlow
  · simpa [Nat.add_comm] using congrArg (BitVec.getLsbD · i) hrest

theorem crcBit_injective : Function.Injective crcBit := by
  intro c d h
  have hlow : c.getLsbD 0 = d.getLsbD 0 := by rw [← getLsbD_crcBit, ← getLsbD_crcBit, h]
  refine word_eq_of_ushiftRight_eq hlow ?_
  unfold crcBit at h
  rw [hlow] at h
  split at h
  · exact (BitVec.xor_left_inj _).mp h
  · exact h

/-- The byte step loses nothing of the register (41_crc.md R159 (d)). -/
theorem crcByte_injective (b : Byte) : Function.Injective (crcByte · b) := fun _ _ h =>
  (BitVec.xor_left_inj _).mp (crcBit_injective.iterate 8 h)

/-- The byte step loses nothing of the byte either. -/
theorem crcByte_injective_byte (c : Word) : Function.Injective (crcByte c) := fun b b' h => by
  have hword : b.setWidth 32 = b'.setWidth 32 := (BitVec.xor_right_inj _).mp (crcBit_injective.iterate 8 h)
  simpa using congrArg (BitVec.setWidth 8) hword

/-! ### Bytes of a range -/

/-- The `n` bytes from offset `a` up. -/
def bytesFrom (buf : Buffer) (a n : Nat) : List Byte := (List.range n).map fun i => buf.byteAt (a + i)

theorem windowBytes_eq_bytesFrom (s : State) : windowBytes s = bytesFrom s.buf s.cursor (s.bound - s.cursor) := rfl

theorem bytesFrom_succ (buf : Buffer) (a n : Nat) : bytesFrom buf a (n + 1) = buf.byteAt a :: bytesFrom buf (a + 1) n := by
  simp [bytesFrom, List.range_succ_eq_map, Function.comp_def, Nat.add_assoc, Nat.add_comm 1]

theorem bytesFrom_add (buf : Buffer) (a m n : Nat) :
    bytesFrom buf a (m + n) = bytesFrom buf a m ++ bytesFrom buf (a + m) n := by
  simp [bytesFrom, List.range_add, Function.comp_def, Nat.add_assoc]

theorem bytesFrom_congr {buf other : Buffer} {a b n : Nat} (h : ∀ i < n, buf.byteAt (a + i) = other.byteAt (b + i)) :
    bytesFrom buf a n = bytesFrom other b n :=
  List.map_congr_left fun i hi => h i (List.mem_range.mp hi)

/-! ### The raw register and the checksum -/

/-- The raw register over a range inside the buffer folds the byte step over its bytes (41_crc.md R153). -/
theorem crcRaw_eq_foldl {buf : Buffer} (n : Nat) :
    ∀ (c : Word) (a : Nat), a + n ≤ buf.len.toNat → crcRaw buf c a n = .ok ((bytesFrom buf a n).foldl crcByte c) := by
  induction n with
  | zero => intro c a _; rfl
  | succ n ih =>
    intro c a h
    rw [crcRaw, readByte_of_lt (by omega), Res.bind_ok, ih _ _ (by omega), bytesFrom_succ, List.foldl_cons]

theorem crcRaw_add (buf : Buffer) (n m : Nat) :
    ∀ (c : Word) (a : Nat), crcRaw buf c a (m + n) = (crcRaw buf c a m).bind fun d => crcRaw buf d (a + m) n := by
  induction m with
  | zero => intro c a; rw [Nat.zero_add]; rfl
  | succ m ih =>
    intro c a
    rw [Nat.add_right_comm, crcRaw, crcRaw, Res.bind_assoc]
    refine Res.bind_congr rfl fun b _ => ?_
    rw [ih, Nat.add_right_comm a, Nat.add_assoc a]

theorem crcRange_self (buf : Buffer) (a : Nat) : crcRange buf a a = .ok 0#32 := by
  rw [crcRange, Nat.sub_self]; rfl

/-- The checksum of a range inside the buffer is the checksum of its bytes (41_crc.md R154). -/
theorem crcRange_eq_checksum {buf : Buffer} {a l : Nat} (h : a ≤ l) (hl : l ≤ buf.len.toNat) :
    crcRange buf a l = .ok (checksum (bytesFrom buf a (l - a))) := by
  rw [crcRange, crcRaw_eq_foldl _ _ _ (by omega), Res.bind_ok, checksum, ← BitVec.xor_allOnes]
  rfl

/-- Folding the byte step over the same bytes loses nothing of the register. -/
theorem foldl_crcByte_injective (bytes : List Byte) : Function.Injective (bytes.foldl crcByte) := by
  induction bytes with
  | nil => exact Function.injective_id
  | cons b bs ih => exact ih.comp (crcByte_injective b)

/-- Of byte strings that differ in one place at most, those with the same checksum are the same (41_crc.md R159 (d)). -/
theorem byte_eq_of_checksum_eq {pre post : List Byte} {b b' : Byte}
    (h : checksum (pre ++ b :: post) = checksum (pre ++ b' :: post)) : b = b' := by
  rw [checksum, checksum, BitVec.not_inj, List.foldl_append, List.foldl_append] at h
  exact crcByte_injective_byte _ (foldl_crcByte_injective post h)

/-- Changing exactly one byte of a range changes its checksum. -/
theorem checksum_bytesFrom_ne {buf other : Buffer} {a x l : Nat} (hlo : a ≤ x) (hhi : x < l)
    (hx : other.byteAt x ≠ buf.byteAt x) (hrest : ∀ y, y ≠ x → other.byteAt y = buf.byteAt y) :
    checksum (bytesFrom other a (l - a)) ≠ checksum (bytesFrom buf a (l - a)) := by
  obtain ⟨k, rfl⟩ := Nat.exists_eq_add_of_le hlo
  obtain ⟨m, rfl⟩ := Nat.exists_eq_add_of_lt hhi
  have hpre : bytesFrom other a k = bytesFrom buf a k := bytesFrom_congr fun i hi => hrest _ (by omega)
  have hpost : bytesFrom other (a + k + 1) m = bytesFrom buf (a + k + 1) m := bytesFrom_congr fun i _ => hrest _ (by omega)
  rw [show a + k + m + 1 - a = k + (m + 1) by omega, bytesFrom_add other, bytesFrom_add buf, bytesFrom_succ other,
    bytesFrom_succ buf, hpre, hpost]
  exact fun h => hx (byte_eq_of_checksum_eq h)

/-- Taking in a little-endian value byte by byte is taking it in at once and making all the bit steps then. -/
theorem foldl_crcByte_of_leSum {buf : Buffer} (n : Nat) :
    ∀ (c w : Word) (a : Nat), w.toNat = leSum buf a n → (bytesFrom buf a n).foldl crcByte c = crcBit^[8 * n] (c ^^^ w) := by
  induction n with
  | zero =>
    intro c w a h
    have hzero : w = 0#32 := BitVec.eq_of_toNat_eq h
    rw [hzero, BitVec.xor_zero]
    rfl
  | succ n ih =>
    intro c w a h
    have hbyte := (buf.byteAt a).isLt
    rw [leSum_succ] at h
    have hlow : w.setWidth 8 = buf.byteAt a := BitVec.eq_of_toNat_eq (by rw [BitVec.toNat_setWidth]; omega)
    have hrest : (w >>> 8).toNat = leSum buf (a + 1) n := by
      rw [BitVec.toNat_ushiftRight, Nat.shiftRight_eq_div_pow]; omega
    rw [bytesFrom_succ, List.foldl_cons, ih _ _ _ hrest, ← hlow, crcByte_eq_crcSerial, ← crcBit_iterate_eight_xor,
      ← Function.iterate_add_apply, Nat.mul_succ]

/-- 32 bit steps from all-ones, complemented. -/
theorem not_crcBit_iterate_allOnes : ~~~crcBit^[32] (~~~0#32) = 0x2144DF1C#32 := by decide +kernel

/-- Bytes followed by their own checksum have one checksum, whatever they are (95_test_vectors.md V5). -/
theorem checksum_append_trailer {buf : Buffer} {a : Nat} {bytes : List Byte} (h : (checksum bytes).toNat = leSum buf a 4) :
    checksum (bytes ++ bytesFrom buf a 4) = 0x2144DF1C#32 := by
  rw [checksum, List.foldl_append, foldl_crcByte_of_leSum 4 _ _ _ h, checksum, ← BitVec.not_xor_right, BitVec.xor_self]
  exact not_crcBit_iterate_allOnes

/-! ### CRC32 and CRCV -/

/-- The body of CRC32 on a valid window (41_crc.md R156). -/
theorem crc32Body_eq {s : State} (hw : s.windowValid) : crc32Body s = .ok { s.regs with crc := checksum (windowBytes s) } := by
  rw [crc32Body, crcRange_eq_checksum hw.1 hw.2, Res.bind_ok, windowBytes_eq_bytesFrom]

/-- The body of CRCV on a valid window (41_crc.md R157). -/
theorem crcvBody_eq {s : State} (hw : s.windowValid) :
    crcvBody s = if s.bufLen < s.bound + 4 then .raise .badWindow
      else if (checksum (windowBytes s)).toNat = leSum s.buf s.bound 4 then
        .ok { s.regs with crc := checksum (windowBytes s) }
      else .raise .corrupt := by
  refine ite_congr rfl (fun _ => rfl) fun hroom => ?_
  rw [crcRange_eq_checksum hw.1 hw.2, memRead_eq_leSum 4 s.bound (Nat.le_of_not_lt hroom), Res.bind_ok, Res.bind_ok,
    windowBytes_eq_bytesFrom]

/-- CRCV ends OK only on a valid window followed by its checksum. -/
theorem trailer_agrees_of_crcv_ok {s t : State} (h : exec .crcv s = .next t) (hst : t.regs.status = 0#32) :
    s.windowValid ∧ s.bound + 4 ≤ s.bufLen ∧ (checksum (windowBytes s)).toNat = leSum s.buf s.bound 4 := by
  obtain ⟨hw, q, hq, -⟩ := exec_next_of_ok h hst
  rw [bodyOf, crcvBody_eq hw] at hq
  split at hq
  · cases hq
  next hroom =>
  split at hq
  · next hsum => exact ⟨hw, Nat.le_of_not_lt hroom, hsum⟩
  · cases hq

end Sys2Proof.Machine
end

section
/-! PROOFS. The checksum (41_crc.md): the byte step and the laws of R159, CRC32 R156, CRCV R157, the detection of a changed byte
R160, the residue (95_test_vectors.md V5). -/

namespace Sys2Proof.Safety

open Sys2Proof.Machine

/-- Settles O25: the bit-serial form takes in the byte's bits one by one where the byte step takes them in at once. -/
theorem crcByteStepIsBitSerial : Obligations.CrcByteStepIsBitSerial :=
  ⟨fun c => if_congr (getLsbD_zero_iff c) rfl rfl, crcByte_eq_iterate, crcByte_eq_crcSerial⟩

/-- Settles O26: an injection of a finite type into itself is a bijection. -/
theorem crcStepsAreBijections : Obligations.CrcStepsAreBijections :=
  ⟨Finite.injective_iff_bijective.mp crcBit_injective, fun b => Finite.injective_iff_bijective.mp (crcByte_injective b)⟩

/-- Settles O27: inside its buffer a range has the checksum of its bytes. -/
theorem crcRangeLaws : Obligations.CrcRangeLaws := by
  refine ⟨crcRange_self, fun buf c a m l ham hml => ?_, fun buf other a b n ha hb h => ?_⟩
  · have hsplit := crcRaw_add buf (l - m) (m - a) c a
    rwa [Nat.add_sub_cancel' ham, Nat.add_comm, Nat.sub_add_sub_cancel hml ham] at hsplit
  · rw [crcRange_eq_checksum (Nat.le_add_right a n) ha, crcRange_eq_checksum (Nat.le_add_right b n) hb, Nat.add_sub_cancel_left,
      Nat.add_sub_cancel_left, bytesFrom_congr h]

/-- Settles O28: on a valid window the body delivers the checksum, and no body runs on an ill-formed one. -/
theorem crc32ChecksumsTheWindow : Obligations.Crc32ChecksumsTheWindow := fun _ =>
  ⟨fun hw => runCommand_ok hw (crc32Body_eq hw), fun hbad => runCommand_badWindow hbad⟩

/-- Settles O29: each clause is one branch of the body. -/
theorem crcvComparesWithTheTrailer : Obligations.CrcvComparesWithTheTrailer := by
  refine fun s => ⟨fun hbad => runCommand_badWindow hbad, fun hw => ⟨fun hshort => ?_, fun hroom hne => ?_, fun hroom heq => ?_⟩⟩
  · exact runCommand_raise hw ((crcvBody_eq hw).trans (if_pos hshort))
  · exact runCommand_raise hw ((crcvBody_eq hw).trans ((if_neg (Nat.not_lt.mpr hroom)).trans (if_neg hne)))
  · exact runCommand_ok hw ((crcvBody_eq hw).trans ((if_neg (Nat.not_lt.mpr hroom)).trans (if_pos heq)))

/-- Settles O30: the changed byte changes the window's checksum but not the trailer, which agreed with it before. -/
theorem oneChangedByteIsAlwaysDetected : Obligations.OneChangedByteIsAlwaysDetected := by
  intro s t other a h hst hlen hlo hhi ha hrest
  obtain ⟨hw, hroom, hsum⟩ := trailer_agrees_of_crcv_ok h hst
  have htrailer : leSum other s.bound 4 = leSum s.buf s.bound 4 :=
    Finset.sum_congr rfl fun i _ => by rw [hrest (s.bound + i) (by omega)]
  have hother : State.bufLen { s with buf := other } = s.bufLen := congrArg BitVec.toNat hlen
  obtain ⟨-, hvalid⟩ := crcvComparesWithTheTrailer { s with buf := other }
  obtain ⟨-, hcorrupt, -⟩ := hvalid ⟨hw.1, hw.2.trans_eq hother.symm⟩
  refine hcorrupt (hroom.trans_eq hother.symm) fun hagree => ?_
  exact checksum_bytesFrom_ne hlo hhi ha hrest (BitVec.eq_of_toNat_eq (hagree.trans (htrailer.trans hsum.symm)))

/-- Settles O31: the window that ends 4 bytes later is the window followed by its checksum. -/
theorem residueOfAGoodFrame : Obligations.ResidueOfAGoodFrame := by
  intro s t h hst
  obtain ⟨hw, hroom, hsum⟩ := trailer_agrees_of_crcv_ok h hst
  have hlen : s.bufLen < 2 ^ 32 := s.buf.len.isLt
  have hbound : (s.regs.lim + 4#32).toNat = s.bound + 4 := by
    rw [BitVec.toNat_add]
    exact Nat.mod_eq_of_lt (hroom.trans_lt hlen)
  have hcursor : s.cursor ≤ (s.regs.lim + 4#32).toNat := by rw [hbound]; exact Nat.le_add_right_of_le hw.1
  obtain ⟨hok, -⟩ := crc32ChecksumsTheWindow (writeLim (s.regs.lim + 4#32) s)
  refine ⟨_, hok ⟨hcursor, hbound.trans_le hroom⟩, rfl, ?_⟩
  have hbytes : windowBytes (writeLim (s.regs.lim + 4#32) s) = windowBytes s ++ bytesFrom s.buf s.bound 4 := by
    have hsplit := bytesFrom_add s.buf s.cursor (s.bound - s.cursor) 4
    rw [Nat.add_sub_cancel' hw.1, ← Nat.sub_add_comm hw.1, ← hbound] at hsplit
    exact hsplit
  exact (congrArg checksum hbytes).trans (checksum_append_trailer hsum)

end Sys2Proof.Safety
end

section
/-! SUPPORT. Stop-bit integers (42_varint.md): the group loop of R170 on each kind of byte run, dec_u32 R170, the bodies of
VU32 R171 and VU64 R172, the spellings of 30_encoding.md R106 to R108 that an encoder writes. -/

namespace Sys2Proof.Machine

open Sys2Proof.Safety

/-! ### The groups as an integer -/

/-- Folding in a group is one step of base 128 (30_encoding.md R107). -/
theorem foldGroup_eq (v : Nat) (b : Byte) : foldGroup v b = v * 128 + b.toNat % 128 := by
  have hmask : b.toNat &&& 0x7F = b.toNat % 128 := Nat.and_two_pow_sub_one_eq_mod _ 7
  rw [foldGroup, hmask, ← Nat.shiftLeft_add_eq_or_of_lt (Nat.mod_lt _ (by decide)), Nat.shiftLeft_eq]

/-- One more group after `n` of them: the loop's accumulator is the sum of R107. -/
theorem foldGroup_groupSum (buf : Buffer) (a n : Nat) :
    foldGroup (groupSum buf a n) (buf.byteAt (a + n)) = groupSum buf a (n + 1) := by
  have hshift : ∀ i ∈ Finset.range n, (buf.byteAt (a + i)).toNat % 128 * 128 ^ (n - i) =
      (buf.byteAt (a + i)).toNat % 128 * 128 ^ (n - 1 - i) * 128 := by
    intro i hi
    have hlt := Finset.mem_range.mp hi
    rw [show n - i = n - 1 - i + 1 by omega, pow_succ, mul_assoc]
  rw [foldGroup_eq, groupSum, groupSum, Finset.sum_range_succ, Nat.add_sub_cancel, Finset.sum_congr rfl hshift,
    Finset.sum_mul, Nat.sub_self, pow_zero, mul_one]

/-- One more group before `n` of them. -/
theorem groupSum_succ (buf : Buffer) (a n : Nat) :
    groupSum buf a (n + 1) = (buf.byteAt a).toNat % 128 * 128 ^ n + groupSum buf (a + 1) n := by
  rw [groupSum, Finset.sum_range_succ', add_comm, groupSum]
  refine congrArg₂ (· + ·) rfl (Finset.sum_congr rfl fun i _ => ?_)
  rw [show a + (i + 1) = a + 1 + i by omega, show n + 1 - 1 - (i + 1) = n - 1 - i by omega]

/-! ### The group loop and dec_u32, by what stands in the buffer -/

section groups

variable {buf : Buffer} {a lim n : Nat} (hlim : lim ≤ buf.len.toNat)

include hlim

/-- One round of the loop inside the bound. -/
theorem groupLoop_of_lt (left : Nat) {v p c : Nat} (hp : p < lim) :
    groupLoop buf lim (left + 1) ⟨v, p, c⟩ =
      if moreAt buf p then groupLoop buf lim left ⟨foldGroup v (buf.byteAt p), p + 1, c + 1⟩
      else .ok ⟨foldGroup v (buf.byteAt p), p + 1, c + 1⟩ := by
  rw [groupLoop, if_neg (Nat.not_le.mpr hp), readByte_of_lt (hp.trans_le hlim), Res.bind_ok]
  exact if_congr (continues_iff _) rfl rfl

/-- A run of `k` bytes with bit 7 set takes the loop `k` groups on. -/
theorem groupLoop_run (k : Nat) : ∀ left, a + k ≤ lim → (∀ i < k, moreAt buf (a + i)) →
    groupLoop buf lim (left + k) ⟨0, a, 0⟩ = groupLoop buf lim left ⟨groupSum buf a k, a + k, k⟩ := by
  induction k with
  | zero => intro left _ _; rfl
  | succ k ih =>
    intro left hend hmore
    rw [show left + (k + 1) = left + 1 + k by omega,
      ih (left + 1) (by omega) fun i hi => hmore i (by omega), groupLoop_of_lt hlim left (show a + k < lim from hend),
      if_pos (hmore k (Nat.lt_succ_self k)), foldGroup_groupSum, Nat.add_assoc]

/-- The loop reads a stop-bit integer to its end. -/
theorem groupLoop_of_stopBitAt (h : stopBitAt buf a n lim) :
    groupLoop buf lim Config.varintMaxGroups ⟨0, a, 0⟩ = .ok ⟨groupSum buf a n, a + n, n⟩ := by
  obtain ⟨hpos, hmax, hend, hmore, hstop⟩ := h
  obtain ⟨k, rfl⟩ : ∃ k, n = k + 1 := ⟨n - 1, by omega⟩
  rw [Nat.add_sub_cancel] at hmore hstop
  rw [show Config.varintMaxGroups = 4 - k + 1 + k by simp only [Config.varintMaxGroups]; omega,
    groupLoop_run hlim k _ (by omega) hmore, groupLoop_of_lt hlim _ (show a + k < lim from hend), if_neg hstop,
    foldGroup_groupSum, Nat.add_assoc]

/-- The loop meets the bound where bit 7 announces another group. -/
theorem groupLoop_of_unfinishedAt (h : unfinishedAt buf a lim) :
    groupLoop buf lim Config.varintMaxGroups ⟨0, a, 0⟩ = .raise .fieldOverrun := by
  obtain ⟨hle, hshort, hmore⟩ := h
  rw [show Config.varintMaxGroups = 4 - (lim - a) + 1 + (lim - a) by simp only [Config.varintMaxGroups]; omega,
    groupLoop_run hlim _ _ (by omega) hmore, groupLoop, if_pos (by simp only; omega)]

/-- No sixth group is read. -/
theorem groupLoop_of_tooLongAt (h : tooLongAt buf a lim) :
    groupLoop buf lim Config.varintMaxGroups ⟨0, a, 0⟩ = .raise .varRange := by
  obtain ⟨hend, hmore⟩ := h
  exact groupLoop_run hlim 5 0 hend hmore

theorem decU32_of_stopBitAt (h : stopBitAt buf a n lim) (hval : groupSum buf a n < 2 ^ 32) :
    decU32 buf a lim = .ok (groupSum buf a n, a + n) := by
  rw [decU32, groupLoop_of_stopBitAt hlim h, Res.bind_ok, if_neg (Nat.not_le.mpr hval)]

theorem decU32_of_tooLarge (h : stopBitAt buf a n lim) (hval : 2 ^ 32 ≤ groupSum buf a n) :
    decU32 buf a lim = .raise .varRange := by
  rw [decU32, groupLoop_of_stopBitAt hlim h, Res.bind_ok, if_pos hval]

theorem decU32_of_unfinishedAt (h : unfinishedAt buf a lim) : decU32 buf a lim = .raise .fieldOverrun := by
  rw [decU32, groupLoop_of_unfinishedAt hlim h, Res.bind_raise]

theorem decU32_of_tooLongAt (h : tooLongAt buf a lim) : decU32 buf a lim = .raise .varRange := by
  rw [decU32, groupLoop_of_tooLongAt hlim h, Res.bind_raise]

end groups

/-! ### Spellings -/

@[simp] theorem spellGroups_length (n v : Nat) : (spellGroups n v).length = n := by
  induction n with
  | zero => rfl
  | succ n ih => rw [spellGroups, List.length_cons, ih]

section spellings

variable {buf : Buffer} {lim v : Nat}

/-- The first byte of a spelling is the group of the highest weight; bit 7 is set unless it is also the last (30_encoding.md
R106, R107). -/
theorem standsAt_spellGroups_succ {a k : Nat} (h : standsAt buf a lim (spellGroups (k + 1) v)) :
    (buf.byteAt a).toNat = (if k = 0 then 0 else 128) + v / 128 ^ k % 128 ∧
      standsAt buf (a + 1) lim (spellGroups k v) := by
  obtain ⟨hhead, hrest⟩ := standsAt_cons h
  refine ⟨?_, hrest⟩
  rw [hhead]
  split
  · next hk =>
    rw [hk, pow_zero, Nat.div_one, BitVec.toNat_ofNat]
    omega
  · rw [BitVec.toNat_ofNat]
    omega

/-- The groups of a spelling denote the integer, up to their number (30_encoding.md R107). -/
theorem groupSum_of_spellGroups (n : Nat) :
    ∀ {a}, standsAt buf a lim (spellGroups n v) → groupSum buf a n = v % 128 ^ n := by
  induction n with
  | zero => intro a _; rw [pow_zero, Nat.mod_one]; rfl
  | succ k ih =>
    intro a h
    obtain ⟨hhead, hrest⟩ := standsAt_spellGroups_succ h
    have hdigit : (buf.byteAt a).toNat % 128 = v / 128 ^ k % 128 := by
      rw [hhead]
      split <;> omega
    rw [groupSum_succ, hdigit, ih hrest, Nat.mod_pow_succ, Nat.mul_comm, Nat.add_comm]

/-- A spelling has the flags of a stop-bit integer: bit 7 is clear in its last byte only (30_encoding.md R106). -/
theorem moreAt_of_spellGroups (k : Nat) :
    ∀ {a}, standsAt buf a lim (spellGroups (k + 1) v) → (∀ i < k, moreAt buf (a + i)) ∧ ¬ moreAt buf (a + k) := by
  induction k with
  | zero =>
    intro a h
    obtain ⟨hlast, -⟩ := standsAt_spellGroups_succ h
    refine ⟨fun i hi => absurd hi (Nat.not_lt_zero i), ?_⟩
    rw [moreAt, Nat.add_zero, hlast, if_pos rfl]
    omega
  | succ k ih =>
    intro a h
    obtain ⟨hhead, hrest⟩ := standsAt_spellGroups_succ h
    obtain ⟨hmore, hstop⟩ := ih hrest
    refine ⟨?_, by rwa [← Nat.add_right_comm, Nat.add_assoc] at hstop⟩
    rintro (_ | i) hi
    · rw [moreAt, Nat.add_zero, hhead, if_neg (Nat.succ_ne_zero k)]
      omega
    · have hi' := hmore i (by omega)
      rwa [Nat.add_right_comm, Nat.add_assoc] at hi'

/-- A spelling of 1 to 5 groups is a stop-bit integer of that many groups. -/
theorem stopBitAt_of_spellGroups {a n : Nat} (hpos : 1 ≤ n) (hmax : n ≤ 5) (h : standsAt buf a lim (spellGroups n v)) :
    stopBitAt buf a n lim := by
  obtain ⟨k, rfl⟩ : ∃ k, n = k + 1 := ⟨n - 1, by omega⟩
  have hend := h.1
  rw [spellGroups_length] at hend
  exact ⟨hpos, hmax, hend, moreAt_of_spellGroups k h⟩

/-- dec_u32 undoes every spelling of 1 to 5 groups (42_varint.md R173). -/
theorem decU32_of_spellGroups {a n : Nat} (hlim : lim ≤ buf.len.toNat) (hv : v < 2 ^ 32) (hpos : 1 ≤ n) (hmax : n ≤ 5)
    (hfit : v < 128 ^ n) (h : standsAt buf a lim (spellGroups n v)) : decU32 buf a lim = .ok (v, a + n) := by
  have hsum : groupSum buf a n = v := (groupSum_of_spellGroups n h).trans (Nat.mod_eq_of_lt hfit)
  rw [decU32_of_stopBitAt hlim (stopBitAt_of_spellGroups hpos hmax h) (hsum.trans_lt hv), hsum]

/-- A 32-bit integer fits its minimal number of groups (30_encoding.md R108). -/
theorem minGroups_fits (hv : v < 2 ^ 32) : 1 ≤ minGroups v ∧ minGroups v ≤ 5 ∧ v < 128 ^ minGroups v := by
  unfold minGroups
  split_ifs <;> omega

/-- No smaller number of groups holds the integer. -/
theorem minGroups_le {n : Nat} (hpos : 1 ≤ n) (hfit : v < 128 ^ n) : minGroups v ≤ n := by
  have hcover : ∀ k, n ≤ k → v < 128 ^ k := fun k hk => hfit.trans_le (Nat.pow_le_pow_right (by decide) hk)
  have h1 := hcover 1
  have h2 := hcover 2
  have h3 := hcover 3
  have h4 := hcover 4
  unfold minGroups
  split_ifs <;> omega

/-- dec_u32 undoes the minimal spelling. -/
theorem decU32_of_minGroups {a : Nat} (hlim : lim ≤ buf.len.toNat) (hv : v < 2 ^ 32)
    (h : standsAt buf a lim (spellGroups (minGroups v) v)) : decU32 buf a lim = .ok (v, a + minGroups v) := by
  obtain ⟨hpos, hmax, hfit⟩ := minGroups_fits hv
  exact decU32_of_spellGroups hlim hv hpos hmax hfit h

end spellings

/-! ### VU32 and VU64 by what dec_u32 answers -/

section bodies

variable {s : State}

theorem vu32Body_of_ok {v p : Nat} (h : decU32 s.buf s.cursor s.bound = .ok (v, p)) :
    vu32Body s = .ok { s.regs with valLo := BitVec.ofNat 32 v, valHi := 0, off := BitVec.ofNat 32 p } := by
  rw [vu32Body, h, Res.bind_ok]

theorem vu32Body_of_raise {e : Err} (h : decU32 s.buf s.cursor s.bound = .raise e) : vu32Body s = .raise e := by
  rw [vu32Body, h, Res.bind_raise]

theorem vu64Body_of_ok {hi lo p q : Nat} (hhi : decU32 s.buf s.cursor s.bound = .ok (hi, p))
    (hlo : decU32 s.buf p s.bound = .ok (lo, q)) :
    vu64Body s = .ok { s.regs with
      valHi := BitVec.ofNat 32 hi, valLo := BitVec.ofNat 32 lo, off := BitVec.ofNat 32 q } := by
  rw [vu64Body, hhi, Res.bind_ok, hlo, Res.bind_ok]

theorem vu64Body_of_raise_high {e : Err} (h : decU32 s.buf s.cursor s.bound = .raise e) : vu64Body s = .raise e := by
  rw [vu64Body, h, Res.bind_raise]

theorem vu64Body_of_raise_low {hi p : Nat} {e : Err} (hhi : decU32 s.buf s.cursor s.bound = .ok (hi, p))
    (hlo : decU32 s.buf p s.bound = .raise e) : vu64Body s = .raise e := by
  rw [vu64Body, hhi, Res.bind_ok, hlo, Res.bind_raise]

end bodies

/-- Two words are the halves of one 64-bit integer (30_encoding.md R109). -/
theorem toNat_append_halves {v : Nat} (hv : v < 2 ^ 64) :
    (BitVec.ofNat 32 (v / 2 ^ 32) ++ BitVec.ofNat 32 (v % 2 ^ 32)).toNat = v := by
  rw [BitVec.toNat_append, ← Nat.shiftLeft_add_eq_or_of_lt (BitVec.isLt _), Nat.shiftLeft_eq, BitVec.toNat_ofNat,
    BitVec.toNat_ofNat]
  omega

end Sys2Proof.Machine
end

section
/-! PROOFS. Stop-bit integers (42_varint.md): VU32 R171, VU64 R172, and what they give back of the spellings R173, R174. -/

namespace Sys2Proof.Safety

open Sys2Proof.Machine

/-- Settles O34: a spelling is a stop-bit integer whose groups sum to the integer. -/
theorem vu32UndoesEverySpelling : Obligations.Vu32UndoesEverySpelling := by
  intro s v hw hv
  refine ⟨fun n hpos hmax hfit hs => ?_, ?_⟩
  · exact runCommand_ok hw (vu32Body_of_ok (decU32_of_spellGroups hw.2 hv hpos hmax hfit hs))
  · obtain ⟨hpos, hmax, hfit⟩ := minGroups_fits hv
    exact ⟨hpos, hmax, hfit, fun n => minGroups_le⟩

/-- Settles O35: each half comes back from its minimal spelling, the second where the first ends. -/
theorem vu64UndoesTheMinimalSpelling : Obligations.Vu64UndoesTheMinimalSpelling := by
  intro s v hw hv hs
  obtain ⟨hhigh, hlow⟩ := standsAt_append hs
  rw [spellGroups_length] at hlow
  have hbody := vu64Body_of_ok (decU32_of_minGroups hw.2 (by omega) hhigh) (decU32_of_minGroups hw.2 (by omega) hlow)
  refine ⟨_, runCommand_ok hw hbody, rfl, toNat_append_halves hv, toNat_ofNat_of_le_bound (s := s) ?_⟩
  have hend := hlow.1
  rwa [spellGroups_length] at hend

/-- Settles O32: each clause is one answer of dec_u32. -/
theorem vu32OutcomeAndResult : Obligations.Vu32OutcomeAndResult := by
  refine fun s => ⟨fun hbad => runCommand_badWindow hbad, fun hw => ⟨fun n h hval => ?_, fun h => ?_, fun h => ?_,
    fun n h hval => ?_⟩⟩
  · exact runCommand_ok hw (vu32Body_of_ok (decU32_of_stopBitAt hw.2 h hval))
  · exact runCommand_raise hw (vu32Body_of_raise (decU32_of_unfinishedAt hw.2 h))
  · exact runCommand_raise hw (vu32Body_of_raise (decU32_of_tooLongAt hw.2 h))
  · exact runCommand_raise hw (vu32Body_of_raise (decU32_of_tooLarge hw.2 h hval))

/-- Settles O33: each clause is one answer of dec_u32 to the first half, or to the second after a first that decoded. -/
theorem vu64OutcomeAndResult : Obligations.Vu64OutcomeAndResult := by
  refine fun s => ⟨fun hbad => runCommand_badWindow hbad, fun hw => ⟨fun h => ?_, fun h => ?_,
    fun n hn => ⟨fun hval => ?_, fun hval => ?_⟩⟩⟩
  · exact runCommand_raise hw (vu64Body_of_raise_high (decU32_of_unfinishedAt hw.2 h))
  · exact runCommand_raise hw (vu64Body_of_raise_high (decU32_of_tooLongAt hw.2 h))
  · exact runCommand_raise hw (vu64Body_of_raise_high (decU32_of_tooLarge hw.2 hn hval))
  · have hhigh := decU32_of_stopBitAt hw.2 hn hval
    refine ⟨fun h => ?_, fun h => ?_, fun m hm => ⟨fun hval' => ?_, fun hval' => ?_⟩⟩
    · exact runCommand_raise hw (vu64Body_of_raise_low hhigh (decU32_of_unfinishedAt hw.2 h))
    · exact runCommand_raise hw (vu64Body_of_raise_low hhigh (decU32_of_tooLongAt hw.2 h))
    · exact runCommand_raise hw (vu64Body_of_raise_low hhigh (decU32_of_tooLarge hw.2 hm hval'))
    · exact runCommand_ok hw (vu64Body_of_ok hhigh (decU32_of_stopBitAt hw.2 hm hval'))

end Sys2Proof.Safety
end

section
/-! SUPPORT. Strings (43_string.md): the errors of dec_strlen R191, and the body of STR R192 on each of its errors. -/

namespace Sys2Proof.Machine

open Sys2Proof.Safety

/-- No byte of a prefix stands before the bound (43_string.md R191). -/
theorem decStrLen_of_empty {buf : Buffer} {a lim : Nat} (h : lim ≤ a) : decStrLen buf a lim = .raise .fieldOverrun := by
  rw [decStrLen, if_pos h]

/-- The bound comes after the first byte of a two-byte prefix (43_string.md R191). -/
theorem decStrLen_of_cutPrefix {buf : Buffer} {a lim : Nat} (hlim : lim ≤ buf.len.toNat) (h : a + 1 = lim)
    (hmore : moreAt buf a) : decStrLen buf a lim = .raise .fieldOverrun := by
  rw [decStrLen, if_neg (by omega), readByte_of_lt (by omega), Res.bind_ok, if_pos ((continues_iff _).mpr hmore),
    if_pos h.ge]

theorem strBody_of_raise {s : State} {e : Err} (h : decStrLen s.buf s.cursor s.bound = .raise e) : strBody s = .raise e := by
  rw [strBody, h, Res.bind_raise]

/-- The content does not end inside the window. -/
theorem strBody_of_overrun {s : State} {len p : Nat} (h : decStrLen s.buf s.cursor s.bound = .ok (len, p))
    (hover : s.bound < p + len) : strBody s = .raise .fieldOverrun := by
  rw [strBody, h, Res.bind_ok, if_pos hover]

end Sys2Proof.Machine
end

section
/-! PROOFS. Strings (43_string.md): STR R192 on every window. -/

namespace Sys2Proof.Safety

open Sys2Proof.Machine

/-- Settles O36: each clause is one answer of dec_strlen, and where that is a length, one side of the bound on the content. -/
theorem strOutcomeAndResult : Obligations.StrOutcomeAndResult := by
  refine fun s => ⟨fun hbad => runCommand_badWindow hbad, fun hw => ⟨fun hin hstop hfit => ?_,
    fun len hin hmore hlen hfit => ?_, fun hempty => ?_, fun hcut hmore => ?_, fun hin hstop hover => ?_,
    fun hin hmore hover => ?_⟩⟩
  · exact runCommand_ok hw (strBody_of_decStrLen (decStrLen_short hw.2 hin hstop) hfit)
  · subst hlen
    exact runCommand_ok hw (strBody_of_decStrLen (decStrLen_long hw.2 hin hmore) hfit)
  · exact runCommand_raise hw (strBody_of_raise (decStrLen_of_empty hempty.ge))
  · exact runCommand_raise hw (strBody_of_raise (decStrLen_of_cutPrefix hw.2 hcut hmore))
  · exact runCommand_raise hw (strBody_of_overrun (decStrLen_short hw.2 hin hstop) hover)
  · exact runCommand_raise hw (strBody_of_overrun (decStrLen_long hw.2 hin hmore) hover)

end Sys2Proof.Safety
end

section
/-! SUPPORT. Decimals (44_decimal.md): the two's complement reading of the groups, dec_s32 R206 on each kind of byte run and on
the spellings of 30_encoding.md R111, the body of DEC R207 by what dec_s32 answers. -/

namespace Sys2Proof.Machine

open Sys2Proof.Safety

/-! ### Two's complement over the value bits of the groups -/

theorem groupSum_lt (buf : Buffer) (n : Nat) : ∀ a, groupSum buf a n < 128 ^ n := by
  induction n with
  | zero => intro a; exact Nat.one_pos
  | succ n ih =>
    intro a
    have hrest := ih (a + 1)
    have hdigit : (buf.byteAt a).toNat % 128 * 128 ^ n ≤ 127 * 128 ^ n :=
      Nat.mul_le_mul_right _ (Nat.le_of_lt_succ (Nat.mod_lt _ (by decide)))
    rw [groupSum_succ, pow_succ]
    omega

/-- The sign bit is the highest value bit, of weight 64 in the highest group. -/
theorem signedGroups_succ (v k : Nat) :
    signedGroups v (k + 1) = if 64 * 128 ^ k ≤ v then (v : Int) - 128 ^ (k + 1) else (v : Int) := by
  have hsign : 2 ^ (7 * (k + 1) - 1) = 64 * 128 ^ k := by
    rw [show 7 * (k + 1) - 1 = 6 + 7 * k by omega, pow_add, pow_mul]
    rfl
  have hmodulus : (2 : Int) ^ (7 * (k + 1)) = 128 ^ (k + 1) := pow_mul 2 7 (k + 1)
  rw [signedGroups, hsign, hmodulus]

/-- The sign bit of the groups is bit 6 of the first byte (44_decimal.md R206). -/
theorem signedGroups_groupSum (buf : Buffer) (a : Nat) {n : Nat} (hpos : 1 ≤ n) :
    signedGroups (groupSum buf a n) n = signedSum buf a n := by
  obtain ⟨k, rfl⟩ := Nat.exists_eq_add_of_le' hpos
  have hsign : 64 * 128 ^ k ≤ groupSum buf a (k + 1) ↔ ¬ (buf.byteAt a).toNat % 128 < 64 := by
    have hrest := groupSum_lt buf k (a + 1)
    rw [groupSum_succ]
    refine ⟨fun h hlow => ?_, fun h => Nat.le_add_right_of_le (Nat.mul_le_mul_right _ (Nat.le_of_not_lt h))⟩
    have hdigit := Nat.mul_le_mul_right (128 ^ k) (Nat.le_of_lt_succ hlow)
    omega
  rw [signedGroups_succ, signedSum, if_congr hsign rfl rfl, ite_not]

/-- The two's complement reading is the balanced remainder. -/
theorem signedGroups_eq_bmod {v n : Nat} (hpos : 1 ≤ n) (hv : v < 128 ^ n) :
    signedGroups v n = (v : Int).bmod (128 ^ n) := by
  obtain ⟨k, rfl⟩ := Nat.exists_eq_add_of_le' hpos
  rw [signedGroups_succ, Int.bmod_def, Int.emod_eq_of_lt (Int.natCast_nonneg v) (Int.ofNat_lt.mpr hv), ← ite_not]
  refine if_congr ?_ rfl (by push_cast; rfl)
  rw [pow_succ]
  omega

/-- An integer that n groups can hold is its own balanced remainder (30_encoding.md R111). -/
theorem bmod_of_fits {m : Int} {n : Nat} (hpos : 1 ≤ n) (hlo : -64 * 128 ^ (n - 1) ≤ m) (hhi : m < 64 * 128 ^ (n - 1)) :
    m.bmod (128 ^ n) = m := by
  obtain ⟨k, rfl⟩ := Nat.exists_eq_add_of_le' hpos
  rw [Nat.add_sub_cancel] at hlo hhi
  have hmodulus : ((128 ^ (k + 1) : Nat) : Int) = 128 * 128 ^ k := by push_cast; exact pow_succ' _ _
  exact Int.bmod_eq_of_le_mul_two (by rw [hmodulus]; omega) (by rw [hmodulus]; omega)

/-! ### dec_s32, by what stands in the buffer -/

section mantissa

variable {buf : Buffer} {a lim n : Nat} (hlim : lim ≤ buf.len.toNat)

include hlim

theorem decS32_of_stopBitAt (h : stopBitAt buf a n lim) (hlo : -2 ^ 31 ≤ signedSum buf a n)
    (hhi : signedSum buf a n ≤ 2 ^ 31 - 1) : decS32 buf a lim = .ok (signedSum buf a n, a + n) := by
  rw [decS32, groupLoop_of_stopBitAt hlim h, Res.bind_ok, signedGroups_groupSum buf a h.1,
    if_neg (not_or.mpr ⟨not_lt.mpr hlo, not_lt.mpr hhi⟩)]

theorem decS32_of_outOfRange (h : stopBitAt buf a n lim)
    (hout : signedSum buf a n < -2 ^ 31 ∨ 2 ^ 31 - 1 < signedSum buf a n) : decS32 buf a lim = .raise .varRange := by
  rw [decS32, groupLoop_of_stopBitAt hlim h, Res.bind_ok, signedGroups_groupSum buf a h.1, if_pos hout]

theorem decS32_of_unfinishedAt (h : unfinishedAt buf a lim) : decS32 buf a lim = .raise .fieldOverrun := by
  rw [decS32, groupLoop_of_unfinishedAt hlim h, Res.bind_raise]

theorem decS32_of_tooLongAt (h : tooLongAt buf a lim) : decS32 buf a lim = .raise .varRange := by
  rw [decS32, groupLoop_of_tooLongAt hlim h, Res.bind_raise]

end mantissa

/-- The groups of a signed spelling read in two's complement give the integer back. -/
theorem signedSum_of_spellSigned {buf : Buffer} {a lim n : Nat} {m : Int} (hpos : 1 ≤ n) (hlo : -64 * 128 ^ (n - 1) ≤ m)
    (hhi : m < 64 * 128 ^ (n - 1)) (h : standsAt buf a lim (spellSigned n m)) : signedSum buf a n = m := by
  have hresidue : ((m % 128 ^ n).toNat : Int) = m % (128 ^ n : Nat) := by
    push_cast
    exact Int.toNat_of_nonneg (Int.emod_nonneg m (by positivity))
  rw [← signedGroups_groupSum buf a hpos, signedGroups_eq_bmod hpos (groupSum_lt buf n a), groupSum_of_spellGroups n h,
    Int.natCast_mod, Int.emod_bmod, hresidue, Int.emod_bmod, bmod_of_fits hpos hlo hhi]

/-- dec_s32 undoes every signed spelling of 1 to 5 groups (44_decimal.md R206; 30_encoding.md R111). -/
theorem decS32_of_spellSigned {buf : Buffer} {a lim n : Nat} {m : Int} (hlim : lim ≤ buf.len.toNat) (hlo : -2 ^ 31 ≤ m)
    (hhi : m ≤ 2 ^ 31 - 1) (hpos : 1 ≤ n) (hmax : n ≤ 5) (hfitlo : -64 * 128 ^ (n - 1) ≤ m)
    (hfithi : m < 64 * 128 ^ (n - 1)) (h : standsAt buf a lim (spellSigned n m)) :
    decS32 buf a lim = .ok (m, a + n) := by
  have hsum := signedSum_of_spellSigned hpos hfitlo hfithi h
  rw [decS32_of_stopBitAt hlim (stopBitAt_of_spellGroups hpos hmax h) (hlo.trans_eq hsum.symm) (hsum.trans_le hhi), hsum]

/-! ### DEC by what dec_s32 answers -/

section bodies

variable {s : State} {m : Int} {p : Nat}

theorem decBody_of_ok (hw : s.windowValid) (h : decS32 s.buf s.cursor s.bound = .ok (m, p)) (hexp : p < s.bound) :
    decBody s = .ok { s.regs with
      mant := BitVec.ofInt 32 m, exp := (s.buf.byteAt p).signExtend 32, off := BitVec.ofNat 32 (p + 1) } := by
  rw [decBody, h, Res.bind_ok, if_neg (Nat.not_le.mpr hexp), readByte_of_lt (hexp.trans_le hw.2), Res.bind_ok]

/-- The window ends before the exponent byte. -/
theorem decBody_of_noExponent (h : decS32 s.buf s.cursor s.bound = .ok (m, p)) (hend : s.bound ≤ p) :
    decBody s = .raise .fieldOverrun := by
  rw [decBody, h, Res.bind_ok, if_pos hend]

theorem decBody_of_raise {e : Err} (h : decS32 s.buf s.cursor s.bound = .raise e) : decBody s = .raise e := by
  rw [decBody, h, Res.bind_raise]

end bodies

end Sys2Proof.Machine
end

section
/-! PROOFS. Decimals (44_decimal.md): DEC R207 on every window, and what it gives back of the spellings R208, R211. -/

namespace Sys2Proof.Safety

open Sys2Proof.Machine

/-- Settles O39: the mantissa comes back from its residue, the exponent from the byte after it. -/
theorem decUndoesEverySpelling : Obligations.DecUndoesEverySpelling := by
  intro s m n e hw hlo hhi hpos hmax hfitlo hfithi hs
  obtain ⟨hmant, hexp⟩ := standsAt_append hs
  rw [spellSigned, spellGroups_length] at hexp
  obtain ⟨hbyte, hend, -⟩ := standsAt_cons hexp
  have hbody := decBody_of_ok hw (decS32_of_spellSigned hw.2 hlo hhi hpos hmax hfitlo hfithi hmant) hend
  rw [hbyte] at hbody
  have hm : (BitVec.ofInt 32 m).toInt = m := BitVec.toInt_ofInt_eq_self (by decide) hlo (Int.lt_of_le_sub_one hhi)
  have he : (e.signExtend 32).toInt = e.toInt := BitVec.toInt_signExtend_of_le (by decide)
  exact ⟨_, runCommand_ok hw hbody, rfl, hm, he, toNat_ofNat_of_le_bound (s := s) hend,
    congrArg₂ (fun (m e : Int) => (m : ℚ) * 10 ^ e) hm he⟩

/-- Settles O38: each clause is one answer of dec_s32, and where that is a mantissa, one side of the bound on the exponent. -/
theorem decOutcomeAndResult : Obligations.DecOutcomeAndResult := by
  refine fun s => ⟨fun hbad => runCommand_badWindow hbad, fun hw => ⟨fun h => ?_, fun h => ?_,
    fun n h => ⟨fun hout => ?_, fun hlo hhi => ⟨fun hend => ?_, fun hexp => ?_⟩⟩⟩⟩
  · exact runCommand_raise hw (decBody_of_raise (decS32_of_unfinishedAt hw.2 h))
  · exact runCommand_raise hw (decBody_of_raise (decS32_of_tooLongAt hw.2 h))
  · exact runCommand_raise hw (decBody_of_raise (decS32_of_outOfRange hw.2 h hout))
  · exact runCommand_raise hw (decBody_of_noExponent (decS32_of_stopBitAt hw.2 h hlo hhi) hend.ge)
  · exact runCommand_ok hw (decBody_of_ok hw (decS32_of_stopBitAt hw.2 h hlo hhi) hexp)

end Sys2Proof.Safety
end

section
/-! SUPPORT. The frame header (45_header.md): a read of several fields at once, the checks of HDR as conditions on the buffer's
bytes R225, R228, and the window that HDR leaves to CRCV R227, R230. -/

namespace Sys2Proof.Machine

open Sys2Proof.Safety

/-! ### Neighbouring fields -/

/-- Two fields read as one: the second counts from the first one's width on (20_memory.md R63). -/
theorem leSum_add (buf : Buffer) (a m n : Nat) :
    leSum buf a (m + n) = leSum buf a m + 256 ^ m * leSum buf (a + m) n := by
  rw [leSum, Finset.sum_range_add, leSum, leSum, Finset.mul_sum]
  congr 1
  refine Finset.sum_congr rfl fun i _ => ?_
  rw [Nat.add_assoc, pow_add, Nat.mul_left_comm]

theorem leSum_lt {buf : Buffer} {a n : Nat} (h : a + n ≤ buf.len.toNat) : leSum buf a n < 256 ^ n :=
  memRead_lt (memRead_eq_leSum n a h)

/-- An 8-byte field as its two words (45_header.md R226). -/
theorem leSum_eight_words {buf : Buffer} {a : Nat} (h : a + 8 ≤ buf.len.toNat) :
    leSum buf a 8 % 2 ^ 32 = leSum buf a 4 ∧ leSum buf a 8 / 2 ^ 32 = leSum buf (a + 4) 4 := by
  have hsplit : leSum buf a 8 = leSum buf a 4 + 2 ^ 32 * leSum buf (a + 4) 4 := leSum_add buf a 4 4
  have hlow : leSum buf a 4 < 2 ^ 32 := leSum_lt (by omega)
  omega

/-! ### HDR -/

/-- The body of HDR on a valid window, check by check (45_header.md R225, R228). -/
theorem hdrBody_eq {s : State} (hw : s.windowValid) :
    hdrBody s = if s.bound - s.cursor < 28 then .raise .truncated
      else if leSum s.buf s.cursor 4 ≠ s.magic.toNat then .raise .notAFrame
      else if leSum s.buf (s.cursor + 8) 4 < 32 then .raise .badLength
      else if s.bound - s.cursor < leSum s.buf (s.cursor + 8) 4 then .raise .truncated
      else headerFields s.buf s.cursor (leSum s.buf s.cursor 4) (leSum s.buf (s.cursor + 8) 4) s.regs := by
  simp only [hdrBody, Config.headerSize, Config.minFrame, Config.trailerSize, Nat.reduceAdd]
  refine ite_congr rfl (fun _ => rfl) fun hroom => ?_
  have hend : s.cursor + 28 ≤ s.buf.len.toNat := (Nat.add_le_of_le_sub' hw.1 (Nat.le_of_not_lt hroom)).trans hw.2
  rw [memRead_eq_leSum 4 s.cursor (by omega), memRead_eq_leSum 4 (s.cursor + 8) (by omega), Res.bind_ok, Res.bind_ok]
  rfl

/-! ### CRCV on a window that has room for the trailer -/

/-- CRCV tests the trailer: OK when it agrees with the window, CORRUPT when not (41_crc.md R157). -/
theorem crcv_tests_trailer {s : State} (hw : s.windowValid) (hroom : s.bound + 4 ≤ s.bufLen) :
    ∃ u : State, exec .crcv s = .next u ∧ (u.regs.status = 0#32 ∨ u.regs.status = 0x03#32) ∧
      (u.regs.status = 0#32 ↔ (checksum (windowBytes s)).toNat = leSum s.buf s.bound 4) := by
  obtain ⟨-, hvalid⟩ := crcvComparesWithTheTrailer s
  obtain ⟨-, hcorrupt, hok⟩ := hvalid hw
  by_cases hsum : (checksum (windowBytes s)).toNat = leSum s.buf s.bound 4
  · exact ⟨_, hok hroom hsum, .inl rfl, iff_of_true rfl hsum⟩
  · exact ⟨_, hcorrupt hroom hsum, .inr rfl, iff_of_false (statusWord_err_ne .corrupt) hsum⟩

/-- The window that HDR and `LIM <- PAY_LIM` leave is the frame without its trailer, and the trailer follows it inside the
buffer (45_header.md R227, R230). -/
theorem window_after_hdr {s t : State} (h : exec .hdr s = .next t) (hst : t.regs.status = 0#32) :
    (writeLim t.regs.payLim t).windowValid ∧ (writeLim t.regs.payLim t).bound + 4 ≤ t.bufLen ∧
      windowBytes (writeLim t.regs.payLim t) = bytesFrom s.buf s.cursor (t.regs.hLen.toNat - 4) ∧
      leSum t.buf (writeLim t.regs.payLim t).bound 4 = leSum s.buf (s.cursor + t.regs.hLen.toNat - 4) 4 := by
  obtain ⟨hhdr, -⟩ := immediatelyAfterOk s t hst
  obtain ⟨-, -, -, hoff, hpay, hlim, hend, hlen⟩ := hhdr h
  obtain ⟨-, -, hbuf, -⟩ := commandFrame .hdr s t h
  obtain ⟨-, hok⟩ := cursorMovement .hdr s t h
  obtain ⟨hkept, -⟩ := hok hst
  have hcursor : (writeLim t.regs.payLim t).cursor = s.cursor := congrArg BitVec.toNat (hkept (.inr (.inr rfl)))
  have hbound : (writeLim t.regs.payLim t).bound = s.cursor + t.regs.hLen.toNat - 4 := hlim
  have hle : s.cursor ≤ t.regs.payLim.toNat := (Nat.le_add_right _ 28).trans (hoff.symm.trans_le hpay)
  have hroom : t.regs.payLim.toNat + 4 ≤ t.bufLen := (hend.trans hlen).trans_eq (by rw [State.bufLen, hbuf])
  refine ⟨⟨hcursor.trans_le hle, (Nat.le_add_right _ 4).trans hroom⟩, hroom, ?_, by rw [hbuf, hbound]⟩
  rw [windowBytes_eq_bytesFrom, writeLim_buf, hbuf, hcursor, hbound, Nat.sub_right_comm, Nat.add_sub_cancel_left]

end Sys2Proof.Machine
end

section
/-! PROOFS. The frame header (45_header.md): HDR R225, R226, R228 on every window, and the frame check of R230. -/

namespace Sys2Proof.Safety

open Sys2Proof.Machine

/-- Settles O40: each clause is one branch of the body; in the last one the timestamp is read as its two words. -/
theorem hdrOutcomeAndResult : Obligations.HdrOutcomeAndResult := by
  refine fun s => ⟨fun hbad => runCommand_badWindow hbad, fun hw => ⟨fun hshort => ?_, fun hroom hne => ?_,
    fun hroom htag hmin => ?_, fun hroom htag hmin hover => ?_, fun hroom htag hmin hfit => ?_⟩⟩
  · exact runCommand_raise hw ((hdrBody_eq hw).trans (if_pos hshort))
  · exact runCommand_raise hw ((hdrBody_eq hw).trans (by rw [if_neg (Nat.not_lt.mpr hroom), if_pos hne]))
  · exact runCommand_raise hw ((hdrBody_eq hw).trans (by
      rw [if_neg (Nat.not_lt.mpr hroom), if_neg (not_not.mpr htag), if_pos hmin]))
  · exact runCommand_raise hw ((hdrBody_eq hw).trans (by
      rw [if_neg (Nat.not_lt.mpr hroom), if_neg (not_not.mpr htag), if_neg (Nat.not_lt.mpr hmin), if_pos hover]))
  · have hend : s.cursor + 28 ≤ s.bound := Nat.add_le_of_le_sub' hw.1 hroom
    have hbuf : s.cursor + 28 ≤ s.buf.len.toNat := hend.trans hw.2
    obtain ⟨hlow, hhigh⟩ := leSum_eight_words (buf := s.buf) (a := s.cursor + 12) (by omega)
    have hbody : hdrBody s = _ := (hdrBody_of_checks hw hend htag hmin hfit).trans (headerFields_eq hbuf _ _ _)
    rw [hlow, hhigh, BitVec.ofNat_toNat, BitVec.setWidth_eq] at hbody
    rw [BitVec.ofNat_toNat, BitVec.ofNat_toNat]
    exact runCommand_ok hw hbody

/-- Settles O42: the window that HDR leaves is the frame without its trailer, and CRCV tests the bytes that follow it. -/
theorem hdrThenCrcvVerifiesTheFrame : Obligations.HdrThenCrcvVerifiesTheFrame := by
  intro s t h hst
  obtain ⟨hw, hroom, hbytes, htrailer⟩ := window_after_hdr h hst
  have htest := crcv_tests_trailer hw hroom
  rw [hbytes, writeLim_buf, htrailer] at htest
  exact htest

end Sys2Proof.Safety
end

section
/-! SUPPORT. A host's run (50_system_context.md R268): what comes of an operation that answers the host, one field of a payload
by its command, and the fields in order R268 (5). -/

namespace Sys2Proof.Machine

open Sys2Proof.Safety

/-! ### What comes of an operation -/

/-- The operation answers, and its answer and the state after it are so related. -/
def comesTo {α : Type} (o : Host.Outcome (α × State) Fault Refusal) (P : α → State → Prop) : Prop :=
  ∃ a t, o = .next (a, t) ∧ P a t

theorem andThen_of_next {α β : Type} {o : Host.Outcome α Fault Refusal} {a : α} {k : α → Host.Outcome β Fault Refusal}
    (h : o = .next a) : andThen o k = k a := by
  rw [h, andThen_next]

theorem comesTo_next {α : Type} {P : α → State → Prop} {a : α} {t : State} (h : P a t) : comesTo (.next (a, t)) P :=
  ⟨a, t, rfl, h⟩

theorem comesTo_andThen {α β : Type} {P : α → State → Prop} {Q : β → State → Prop}
    {o : Host.Outcome (α × State) Fault Refusal} {k : α × State → Host.Outcome (β × State) Fault Refusal}
    (ho : comesTo o P) (hk : ∀ a t, P a t → comesTo (k (a, t)) Q) : comesTo (andThen o k) Q := by
  obtain ⟨a, t, rfl, h⟩ := ho
  exact hk a t h

/-- What no operation of a host changes (20_memory.md R61). -/
def hostKeeps (s t : State) : Prop := t.buf = s.buf ∧ t.magic = s.magic ∧ t.pending = s.pending

theorem hostKeeps.trans {s t u : State} (h : hostKeeps s t) (h' : hostKeeps t u) : hostKeeps s u := by
  obtain ⟨hbuf, hmagic, hpending⟩ := h
  obtain ⟨hbuf', hmagic', hpending'⟩ := h'
  exact ⟨hbuf'.trans hbuf, hmagic'.trans hmagic, hpending'.trans hpending⟩

theorem exec_hostKeeps {i : Instr} {s t : State} (h : exec i s = .next t) : hostKeeps s t := by
  obtain ⟨hbuf, hmagic, hpending, -⟩ := exec_keeps h
  exact ⟨hbuf, hmagic, hpending⟩

/-- A command always ends, OK or with an error outcome (40_dispatch.md R142). -/
theorem exec_ok_or_raise (i : Instr) (s : State) :
    (∃ q, bodyOf i s = .ok q ∧ exec i s = .next (finishOk q s)) ∨
      ∃ e : Err, e.code ∈ outcomesOf i ∧ exec i s = .next (raiseOutcome e s) := by
  obtain ⟨t, ht⟩ := exec_completes i s
  obtain ⟨e, he, rfl⟩ | ⟨-, q, hq, rfl⟩ := exec_next ht
  · exact .inr ⟨e, he, ht⟩
  · exact .inl ⟨q, hq, ht⟩

/-! ### One field -/

/-- The state once the host has read STATUS and the result registers of a field. -/
def afterField (f : TemplateField) (t : State) : State := (hostGetAll (resultRegs f.wire) (hostGet .status t).2).2

/-- The words read after a field are those its result registers hold after its command; the reads change no register. -/
theorem afterField_spec (f : TemplateField) (t : State) :
    (hostGetAll (resultRegs f.wire) (hostGet .status t).2).1 = (resultRegs f.wire).map (readReg t) ∧
      (afterField f t).regs = t.regs ∧ hostKeeps t (afterField f t) := by
  obtain ⟨hwords, hrest⟩ := hostGetAll_spec (resultRegs f.wire) (hostGet .status t).2
  exact ⟨hwords.trans (List.map_congr_left fun r _ => readReg_congr rfl rfl r), hrest⟩

theorem afterField_regs (f : TemplateField) (t : State) : (afterField f t).regs = t.regs := by
  obtain ⟨-, hregs, -⟩ := afterField_spec f t
  exact hregs

theorem afterField_hostKeeps (f : TemplateField) (t : State) : hostKeeps t (afterField f t) := by
  obtain ⟨-, -, hkept⟩ := afterField_spec f t
  exact hkept

section field

variable {f : TemplateField} {s t : State} (fs : List TemplateField)

/-- The field's command ended OK: the others follow. -/
theorem decodeFields_cons_of_ok (ht : exec (wireCommand f.wire) s = .next t) (hst : t.regs.status = 0#32) :
    decodeFields (f :: fs) s = andThen (decodeFields fs (afterField f t)) fun (r, w) =>
      .next (r.map (⟨f, (resultRegs f.wire).map (readReg t)⟩ :: ·), w) := by
  obtain ⟨-, q, -, rfl⟩ := exec_next_of_ok ht hst
  obtain ⟨hwords, -⟩ := afterField_spec f (finishOk q s)
  simp only [decodeFields, hostCommand_ok ht, andThen_next, hwords, afterField]

/-- The field's command ended with an error outcome: it ends the fields. -/
theorem decodeFields_cons_of_raise {e : Err} (h : exec (wireCommand f.wire) s = .next (raiseOutcome e s)) :
    decodeFields (f :: fs) s = .next (.error e, (hostGet .status (raiseOutcome e s)).2) := by
  simp only [decodeFields, hostCommand_raise h, andThen_next]

theorem afterField_buf {w : WireType} (h : exec (wireCommand w) s = .next t) : (afterField f t).buf = s.buf :=
  (afterField_hostKeeps f t).1.trans (exec_keeps h).1

theorem afterField_cursor : (afterField f t).cursor = t.cursor := by rw [State.cursor, afterField_regs, State.cursor]

theorem afterField_windowValid (hw : t.windowValid) : (afterField f t).windowValid := by
  obtain ⟨hbuf, -, -⟩ := afterField_hostKeeps f t
  rwa [State.windowValid, State.cursor, State.bound, State.bufLen, afterField_regs, hbuf]

/-- A field's command writes none of the registers of the frame, and not LIM (10_state.md R21). -/
theorem exec_wireCommand_keeps {w : WireType} (h : exec (wireCommand w) s = .next t) :
    t.regs.lim = s.regs.lim ∧ t.regs.hLen = s.regs.hLen := by
  obtain ⟨hframe, -⟩ := commandFrame _ _ _ h
  have hlim : Reg.lim ∉ writesOf (wireCommand w) := by cases w <;> decide
  have hlen : Reg.hLen ∉ writesOf (wireCommand w) := by cases w <;> decide
  exact ⟨hframe .lim (by decide) hlim, hframe .hLen (by decide) hlen⟩

/-- The error outcomes of the fields' commands (60_exceptions.md R282). -/
theorem error_of_mem_outcomesOf_wireCommand {w : WireType} {e : Err} (h : e.code ∈ outcomesOf (wireCommand w)) :
    e = .fieldOverrun ∨ e = .varRange ∨ e = .badWindow := by
  revert h
  cases w <;> cases e <;> decide

/-- On a valid window a field's command moves the cursor on, not past LIM (10_state.md R34), or ends with FIELD_OVERRUN or
VAR_RANGE. -/
theorem exec_wireCommand_of_windowValid (w : WireType) (hw : s.windowValid) :
    (∃ t, exec (wireCommand w) s = .next t ∧ t.regs.status = 0#32 ∧ s.cursor < t.cursor ∧ t.windowValid) ∨
      ∃ e : Err, (e = .fieldOverrun ∨ e = .varRange) ∧ exec (wireCommand w) s = .next (raiseOutcome e s) := by
  obtain ⟨q, -, h⟩ | ⟨e, he, h⟩ := exec_ok_or_raise (wireCommand w) s
  · obtain ⟨-, hok⟩ := cursorMovement _ _ _ h
    obtain ⟨-, hmoved, -⟩ := hok rfl
    obtain ⟨hlt, hle⟩ := hmoved (by cases w <;> decide)
    have hbound : (finishOk q s).bound = s.bound := congrArg BitVec.toNat (exec_wireCommand_keeps h).1
    exact .inl ⟨_, h, rfl, hlt, hle, hbound.trans_le hw.2⟩
  · have hcrcv : wireCommand w ≠ .crcv := by cases w <;> decide
    obtain hover | hrange | rfl := error_of_mem_outcomesOf_wireCommand he
    · exact .inr ⟨e, .inl hover, h⟩
    · exact .inr ⟨e, .inr hrange, h⟩
    · exact absurd rfl (exec_status_ne_badWindow hcrcv hw h)

end field

/-! ### The fields in order -/

/-- The fields always end, with the frame's length as HDR left it. -/
theorem decodeFields_comesTo (fs : List TemplateField) :
    ∀ s, comesTo (decodeFields fs s) fun _ t => hostKeeps s t ∧ t.regs.hLen = s.regs.hLen := by
  induction fs with
  | nil => exact fun s => comesTo_next ⟨⟨rfl, rfl, rfl⟩, rfl⟩
  | cons f fs ih =>
    intro s
    obtain ⟨q, -, h⟩ | ⟨e, -, h⟩ := exec_ok_or_raise (wireCommand f.wire) s
    · rw [decodeFields_cons_of_ok fs h rfl]
      refine comesTo_andThen (ih _) fun r u ⟨hkept, hlen⟩ => comesTo_next ⟨?_, ?_⟩
      · exact (exec_hostKeeps h).trans ((afterField_hostKeeps f _).trans hkept)
      · rw [hlen, afterField_regs, (exec_wireCommand_keeps h).2]
    · rw [decodeFields_cons_of_raise fs h]
      exact comesTo_next ⟨⟨rfl, rfl, rfl⟩, rfl⟩

/-- How the fields end from a valid window: all of them decoded, each at least a byte long, or an error of a field. -/
def fieldsEnd (fs : List TemplateField) (s : State) (r : Except Err (List DecodedField)) (t : State) : Prop :=
  (∀ l, r = .ok l → l.map (·.field) = fs ∧ s.cursor + fs.length ≤ t.cursor ∧ t.cursor ≤ t.bound) ∧
    ∀ e, r = .error e → e = .fieldOverrun ∨ e = .varRange

/-- One field more before fields that end so. -/
theorem fieldsEnd_cons {f : TemplateField} {words : List Word} {fs : List TemplateField} {s u t : State}
    {r : Except Err (List DecodedField)} (hmoved : s.cursor < u.cursor) (h : fieldsEnd fs u r t) :
    fieldsEnd (f :: fs) s (r.map (⟨f, words⟩ :: ·)) t := by
  obtain ⟨hall, herror⟩ := h
  cases r with
  | error e => exact ⟨nofun, herror⟩
  | ok l =>
    obtain ⟨hfields, hcursor, hbound⟩ := hall l rfl
    refine ⟨?_, nofun⟩
    rintro _ ⟨⟩
    exact ⟨congrArg (f :: ·) hfields, by rw [List.length_cons]; omega, hbound⟩

theorem decodeFields_of_windowValid (fs : List TemplateField) :
    ∀ s, s.windowValid →
      comesTo (decodeFields fs s) fun r t => t.buf = s.buf ∧ t.regs.lim = s.regs.lim ∧ fieldsEnd fs s r t := by
  induction fs with
  | nil => exact fun s hw => comesTo_next ⟨rfl, rfl, fun l hl => by cases hl; exact ⟨rfl, le_rfl, hw.1⟩, nofun⟩
  | cons f fs ih =>
    intro s hw
    obtain ⟨t, h, hst, hmoved, hw'⟩ | ⟨e, he, h⟩ := exec_wireCommand_of_windowValid f.wire hw
    · have hlim : (afterField f t).regs.lim = s.regs.lim := by rw [afterField_regs, (exec_wireCommand_keeps h).1]
      rw [decodeFields_cons_of_ok fs h hst]
      refine comesTo_andThen (ih _ (afterField_windowValid hw')) fun r u ⟨hbuf, hlim', hend⟩ => comesTo_next ?_
      refine ⟨hbuf.trans (afterField_buf h), hlim'.trans hlim, fieldsEnd_cons ?_ hend⟩
      rwa [afterField_cursor]
    · rw [decodeFields_cons_of_raise fs h]
      refine comesTo_next ⟨rfl, rfl, nofun, ?_⟩
      rintro _ ⟨⟩
      exact he

end Sys2Proof.Machine
end

section
/-! SUPPORT. One candidate offset (50_system_context.md R268 (2) to (5)): the three states in which a host issues HDR, CRCV and
the fields' commands, and what an attempt comes to by what those commands answer. -/

namespace Sys2Proof.Machine

open Sys2Proof.Safety

/-! ### The three states in which a host issues commands -/

/-- R268 (2): the cursor at the candidate and LIM at the end of the buffer. -/
def atCandidate (c : Word) (s : State) : State := writeLim s.buf.len (hostGet .buflen (writeOff c s)).2

/-- R268 (3): LIM at the end of the payload. -/
def atTrailer (s : State) : State := writeLim s.regs.payLim (hostGet .payLim s).2

/-- R268 (5): the cursor behind the template id and the presence map. -/
def atFields (s : State) : State := writeOff (s.regs.payOff + 2#32) (hostGet .payOff s).2

/-- What the fields of a frame make of it. -/
def verdictOf : Except Err (List DecodedField) → Verdict
  | .ok fields => .accepted fields
  | .error e => .rejected e

theorem verdictOf_cases (r : Except Err (List DecodedField)) :
    (∃ fields, r = .ok fields ∧ verdictOf r = .accepted fields) ∨ ∃ e, r = .error e ∧ verdictOf r = .rejected e := by
  cases r with
  | ok fields => exact .inl ⟨fields, rfl, rfl⟩
  | error e => exact .inr ⟨e, rfl, rfl⟩

section answers

variable {id : Byte} {c : Word} {s t : State} {e : Err}

theorem attempt_of_notAFrame (h : exec .hdr (atCandidate c s) = .next (raiseOutcome .notAFrame (atCandidate c s))) :
    attempt id c s = .next (.noMarker, (hostGet .status (raiseOutcome .notAFrame (atCandidate c s))).2) :=
  andThen_of_next (hostCommand_raise h)

theorem attempt_of_raise (he : e ≠ .notAFrame)
    (h : exec .hdr (atCandidate c s) = .next (raiseOutcome e (atCandidate c s))) :
    attempt id c s = .next (.rejected e, (hostGet .status (raiseOutcome e (atCandidate c s))).2) := by
  refine (andThen_of_next (hostCommand_raise h)).trans ?_
  cases e with
  | notAFrame => exact absurd rfl he
  | _ => rfl

theorem attempt_of_ok (h : exec .hdr (atCandidate c s) = .next t) (hst : t.regs.status = 0#32) :
    attempt id c s = verifyFrame id (hostGet .status t).2 := by
  obtain ⟨-, q, -, rfl⟩ := exec_next_of_ok h hst
  exact andThen_of_next (hostCommand_ok h)

theorem verifyFrame_of_raise (h : exec .crcv (atTrailer s) = .next (raiseOutcome e (atTrailer s))) :
    verifyFrame id s = .next (.rejected e, (hostGet .status (raiseOutcome e (atTrailer s))).2) :=
  andThen_of_next (hostCommand_raise h)

theorem verifyFrame_of_ok (h : exec .crcv (atTrailer s) = .next t) (hst : t.regs.status = 0#32) :
    verifyFrame id s = decodePayload id (hostGet .status t).2 := by
  obtain ⟨-, q, -, rfl⟩ := exec_next_of_ok h hst
  exact andThen_of_next (hostCommand_ok h)

section payload

variable (hroom : s.regs.payOff.toNat + 2 ≤ s.bufLen)

include hroom

/-- The host's own reads are inside the buffer (R268 (4)). -/
theorem readIdAndMap_eq : readIdAndMap s.buf s.regs.payOff.toNat =
    .ok (s.buf.byteAt s.regs.payOff.toNat, s.buf.byteAt (s.regs.payOff.toNat + 1)) := by
  rw [State.bufLen] at hroom
  rw [readIdAndMap, readByte_of_lt (by omega), readByte_of_lt (by omega), Res.bind_ok, Res.bind_ok]

theorem decodePayload_of_unknown (hid : s.buf.byteAt s.regs.payOff.toNat ≠ id) :
    decodePayload id s = .next (.rejected .unsupportedTemplate, (hostGet .payOff s).2) := by
  simp only [decodePayload, hostGet_fst, hostGet_buf, readReg, readIdAndMap_eq hroom, templateFor, if_neg hid]

theorem decodePayload_of_known (hid : s.buf.byteAt s.regs.payOff.toNat = id) {r : Except Err (List DecodedField)}
    (h : decodeFields (presentFields (s.buf.byteAt (s.regs.payOff.toNat + 1))) (atFields s) = .next (r, t)) :
    decodePayload id s = .next (verdictOf r, t) := by
  rw [presentFields, atFields] at h
  simp only [decodePayload, hostGet_fst, hostGet_buf, readReg, readIdAndMap_eq hroom, templateFor, if_pos hid, h,
    andThen_next]
  cases r <;> rfl

end payload

end answers

/-! ### An attempt always answers -/

theorem decodePayload_comesTo (id : Byte) {s : State} (hroom : s.regs.payOff.toNat + 2 ≤ s.bufLen) :
    comesTo (decodePayload id s) fun _ t => hostKeeps s t := by
  by_cases hid : s.buf.byteAt s.regs.payOff.toNat = id
  · obtain ⟨r, t, h, hkept, -⟩ := decodeFields_comesTo _ (atFields s)
    exact ⟨_, _, decodePayload_of_known hroom hid h, hkept⟩
  · exact ⟨_, _, decodePayload_of_unknown hroom hid, rfl, rfl, rfl⟩

theorem verifyFrame_comesTo (id : Byte) {s : State} (hroom : s.regs.payOff.toNat + 2 ≤ s.bufLen) :
    comesTo (verifyFrame id s) fun _ t => hostKeeps s t := by
  obtain ⟨q, hq, h⟩ | ⟨e, -, h⟩ := exec_ok_or_raise .crcv (atTrailer s)
  · have hpay : q.payOff = s.regs.payOff := by rw [bodyOf_ok_overlay hq]; rfl
    rw [verifyFrame_of_ok h rfl]
    exact decodePayload_comesTo id (hpay ▸ hroom)
  · exact ⟨_, _, verifyFrame_of_raise h, rfl, rfl, rfl⟩

theorem attempt_comesTo (id : Byte) (c : Word) (s : State) : comesTo (attempt id c s) fun _ t => hostKeeps s t := by
  obtain ⟨q, hq, h⟩ | ⟨e, -, h⟩ := exec_ok_or_raise .hdr (atCandidate c s)
  · obtain ⟨⟨-, hmin, hfit, hoff, -⟩, -⟩ := hdrBody_ok hq
    have hroom : q.payOff.toNat + 2 ≤ (atCandidate c s).bound := by omega
    rw [attempt_of_ok h rfl]
    exact verifyFrame_comesTo id hroom
  · by_cases he : e = .notAFrame
    · subst he
      exact ⟨_, _, attempt_of_notAFrame h, rfl, rfl, rfl⟩
    · exact ⟨_, _, attempt_of_raise he h, rfl, rfl, rfl⟩

/-! ### A frame that HDR accepts -/

/-- The registers are those of the frame at `f`, which lies in the buffer, and the cursor is at `f` (45_header.md R225, R227). -/
structure ParsedAt (s : State) (f : Nat) : Prop where
  cursor : s.cursor = f
  minLength : 32 ≤ lengthAt s.buf f
  inBuffer : f + lengthAt s.buf f ≤ s.bufLen
  hLen : s.regs.hLen.toNat = lengthAt s.buf f
  payOff : s.regs.payOff.toNat = f + 28
  payLim : s.regs.payLim.toNat = f + lengthAt s.buf f - 4

/-- A frame that passes the checks of HDR is parsed, and the host goes on to its trailer. -/
theorem attempt_of_frame {c : Word} {s : State} (id : Byte) (hroom : 28 ≤ s.buf.len.toNat - c.toNat)
    (htag : leSum s.buf c.toNat 4 = s.magic.toNat) (hmin : 32 ≤ lengthAt s.buf c.toNat)
    (hfit : lengthAt s.buf c.toNat ≤ s.buf.len.toNat - c.toNat) :
    ∃ t, t.buf = s.buf ∧ ParsedAt t c.toNat ∧ attempt id c s = verifyFrame id t := by
  have hle : c.toNat + lengthAt s.buf c.toNat ≤ s.bufLen := by rw [State.bufLen]; omega
  have hslice : c.toNat + 28 ≤ s.bufLen := by omega
  have hreg {p : Nat} (hp : p ≤ s.bufLen) : (BitVec.ofNat 32 p).toNat = p :=
    toNat_ofNat_of_le_bound (s := atCandidate c s) hp
  obtain ⟨-, hvalid⟩ := hdrOutcomeAndResult (atCandidate c s)
  obtain ⟨-, -, -, -, hok⟩ := hvalid ⟨(Nat.le_add_right _ _).trans hle, le_rfl⟩
  refine ⟨_, ?_, ?_, attempt_of_ok (hok hroom htag hmin hfit) rfl⟩
  · rfl
  · exact
      { cursor := rfl
        minLength := hmin
        inBuffer := hle
        hLen := hreg ((Nat.le_add_left _ _).trans hle)
        payOff := hreg hslice
        payLim := hreg ((Nat.sub_le _ _).trans hle) }

section parsed

variable {s : State} {f : Nat} (h : ParsedAt s f)

include h

theorem atTrailer_bound : (atTrailer s).bound = f + lengthAt s.buf f - 4 := h.payLim

/-- The window that LIM <- PAY_LIM makes is the frame without its trailer. -/
theorem windowBytes_atTrailer : windowBytes (atTrailer s) = bytesFrom s.buf f (lengthAt s.buf f - 4) := by
  have hcursor : (atTrailer s).cursor = f := h.cursor
  rw [windowBytes_eq_bytesFrom, atTrailer_bound h, hcursor, Nat.sub_right_comm, Nat.add_sub_cancel_left]
  rfl

theorem trailer_inBuffer : f + lengthAt s.buf f - 4 + 4 ≤ s.bufLen := by
  have hmin := h.minLength
  have hfit := h.inBuffer
  omega

theorem atTrailer_windowValid : (atTrailer s).windowValid := by
  have hmin := h.minLength
  have hbound := atTrailer_bound h
  refine ⟨?_, hbound.trans_le ((Nat.le_add_right _ 4).trans (trailer_inBuffer h))⟩
  rw [hbound]
  exact h.cursor.trans_le (by omega)

/-- CRCV on that window tests the trailer (41_crc.md R157). -/
theorem verifyFrame_of_corrupt (id : Byte) (hne : ¬ trailerAgrees s.buf f) :
    ∃ t, verifyFrame id s = .next (.rejected .corrupt, t) := by
  obtain ⟨-, hvalid⟩ := crcvComparesWithTheTrailer (atTrailer s)
  obtain ⟨-, hcorrupt, -⟩ := hvalid (atTrailer_windowValid h)
  rw [windowBytes_atTrailer h, atTrailer_bound h] at hcorrupt
  exact ⟨_, verifyFrame_of_raise (hcorrupt (trailer_inBuffer h) hne)⟩

theorem verifyFrame_of_trailerAgrees (id : Byte) (heq : trailerAgrees s.buf f) :
    ∃ t, t.buf = s.buf ∧ ParsedAt t f ∧ t.regs.lim = t.regs.payLim ∧ verifyFrame id s = decodePayload id t := by
  obtain ⟨-, hvalid⟩ := crcvComparesWithTheTrailer (atTrailer s)
  obtain ⟨-, -, hok⟩ := hvalid (atTrailer_windowValid h)
  rw [windowBytes_atTrailer h, atTrailer_bound h] at hok
  refine ⟨_, ?_, ?_, ?_, verifyFrame_of_ok (hok (trailer_inBuffer h) heq) rfl⟩
  · rfl
  · exact { h with }
  · rfl

theorem payOff_inBuffer : s.regs.payOff.toNat + 2 ≤ s.bufLen := by
  have hmin := h.minLength
  have hfit := h.inBuffer
  rw [h.payOff]
  omega

/-- The fields begin behind the template id and the presence map (30_encoding.md R112). -/
theorem atFields_cursor : (atFields s).cursor = f + 30 := by
  have hroom := payOff_inBuffer h
  have hlen : s.bufLen < 2 ^ 32 := s.buf.len.isLt
  have hsum : (atFields s).cursor = (s.regs.payOff.toNat + 2) % 2 ^ 32 := BitVec.toNat_add _ _
  rw [hsum, Nat.mod_eq_of_lt (hroom.trans_lt hlen), h.payOff]

theorem decodePayload_of_foreignId {id : Byte} (hid : s.buf.byteAt (f + 28) ≠ id) :
    ∃ t, decodePayload id s = .next (.rejected .unsupportedTemplate, t) :=
  ⟨_, decodePayload_of_unknown (payOff_inBuffer h) (h.payOff.symm ▸ hid)⟩

/-- The verdict on a frame of a known template is that of its fields. -/
theorem decodePayload_of_ownId {id : Byte} (hid : s.buf.byteAt (f + 28) = id) :
    ∃ r t, decodeFields (presentFields (s.buf.byteAt (f + 29))) (atFields s) = .next (r, t) ∧
      t.regs.hLen = s.regs.hLen ∧ decodePayload id s = .next (verdictOf r, t) := by
  obtain ⟨r, t, hfields, -, hlen⟩ := decodeFields_comesTo (presentFields (s.buf.byteAt (f + 29))) (atFields s)
  refine ⟨r, t, hfields, hlen, decodePayload_of_known (payOff_inBuffer h) (h.payOff.symm ▸ hid) ?_⟩
  rw [h.payOff]
  exact hfields

end parsed

end Sys2Proof.Machine
end

section
/-! PROOFS. The system around the block (50_system_context.md): one candidate and its fields R268 (2) to (5). -/

namespace Sys2Proof.Safety

open Sys2Proof.Machine

/-- Settles O49: the equation is the recursion of the model; from a valid window each field's command keeps it valid. -/
theorem fieldsAreDecodedInOrder : Obligations.FieldsAreDecodedInOrder := by
  refine ⟨fun f fs s t h => ⟨fun hst => ?_, fun e hst => ?_⟩, fun fs s hw => ?_⟩
  · exact ⟨afterField f t, afterField_regs f t, afterField_buf h, decodeFields_cons_of_ok fs h hst⟩
  · obtain ⟨e', -, rfl⟩ := exec_next_of_error h (hst.trans_ne (statusWord_err_ne e))
    obtain rfl : e' = e := statusWord_code_injective hst
    exact ⟨(hostGet .status (raiseOutcome e' s)).2, rfl, decodeFields_cons_of_raise fs h⟩
  · obtain ⟨r, t, h, hbuf, hlim, hend⟩ := decodeFields_of_windowValid fs s hw
    exact ⟨r, t, h, hbuf, hlim, hend⟩

/-- Settles O48: the attempt comes to one verdict, and each clause is one answer of HDR, of CRCV or of the host's registry. -/
theorem attemptFollowsTheSteps : Obligations.AttemptFollowsTheSteps := by
  intro id s c hc
  obtain ⟨v, t, hrun, hbuf, -, -⟩ := attempt_comesTo id c s
  have verdict {w : Verdict} {u : State} (h : attempt id c s = .next (w, u)) : v = w ∧ t = u := by
    rw [hrun] at h
    cases h
    exact ⟨rfl, rfl⟩
  obtain ⟨-, hhdr⟩ := hdrOutcomeAndResult (atCandidate c s)
  obtain ⟨hshort, hmarker, hlength, hover, -⟩ := hhdr ⟨hc, le_rfl⟩
  refine ⟨v, t, hrun, hbuf, fun h28 => ?_, fun h28 => ⟨fun hne => ?_, fun htag => ⟨fun hsmall => ?_, fun hmin =>
    ⟨fun hlong => ?_, fun hfit => ?_⟩⟩⟩⟩
  · exact (verdict (attempt_of_raise (e := .truncated) (by decide) (hshort h28))).1
  · exact (verdict (attempt_of_notAFrame (hmarker h28 hne))).1
  · exact (verdict (attempt_of_raise (e := .badLength) (by decide) (hlength h28 htag hsmall))).1
  · exact (verdict (attempt_of_raise (e := .truncated) (by decide) (hover h28 htag hmin hlong))).1
  obtain ⟨u, hu, hparsed, hverify⟩ := attempt_of_frame id h28 htag hmin hfit
  rw [hverify] at verdict
  rw [← hu]
  refine ⟨fun hne => ?_, fun heq => ?_⟩
  · obtain ⟨w, hw⟩ := verifyFrame_of_corrupt hparsed id hne
    exact (verdict hw).1
  obtain ⟨w, hwu, hparsed, hlim, hpayload⟩ := verifyFrame_of_trailerAgrees hparsed id heq
  rw [hpayload] at verdict
  rw [← hwu]
  refine ⟨fun hid => ?_, fun hid => ?_⟩
  · obtain ⟨x, hx⟩ := decodePayload_of_foreignId hparsed hid
    exact (verdict hx).1
  · obtain ⟨r, x, hfields, -, hx⟩ := decodePayload_of_ownId hparsed hid
    obtain ⟨rfl, rfl⟩ := verdict hx
    have hbound : (atFields w).bound = w.regs.payLim.toNat := congrArg BitVec.toNat hlim
    exact ⟨atFields w, r, rfl, atFields_cursor hparsed, hbound.trans hparsed.payLim, hparsed.hLen, hfields,
      verdictOf_cases r⟩

end Sys2Proof.Safety
end

section
/-! SUPPORT. The search of an iteration (50_system_context.md R268 (1)): what an earlier candidate without a marker leaves does
not change what comes of a later one, and the search stops at the first marker. -/

namespace Sys2Proof.Machine

open Sys2Proof.Safety

/-! ### Instances that answer alike -/

/-- The same registers over the same buffer; the hosts may have asked and have still to do different things. -/
def sameMachine (s s' : State) : Prop := s'.regs = s.regs ∧ s'.buf = s.buf ∧ s'.magic = s.magic

/-- The same but for STATUS, which no command reads (10_state.md R36). -/
def sameButStatus (s s' : State) : Prop :=
  (∃ status, s'.regs = { s.regs with status := status }) ∧ s'.buf = s.buf ∧ s'.magic = s.magic

theorem sameMachine.sameButStatus {s s' : State} (h : sameMachine s s') : sameButStatus s s' :=
  ⟨⟨s.regs.status, h.1⟩, h.2⟩

theorem sameMachine.readReg {s s' : State} (h : sameMachine s s') (r : Reg) : readReg s' r = readReg s r := by
  obtain ⟨hregs, hbuf, -⟩ := h
  exact readReg_congr hregs hbuf r

/-- A body delivers the same to registers that differ in STATUS. -/
theorem bodyOf_sameButStatus (i : Instr) {s s' : State} (h : sameButStatus s s') :
    bodyOf i s' = (bodyOf i s).bind fun q => .ok (overlay i q s'.regs) := by
  obtain ⟨regs, buf, magic, pending, answers⟩ := s'
  obtain ⟨⟨status, rfl⟩, rfl, rfl⟩ := h
  have hbody := bodyOf_withRegs i s (r := { s.regs with status := status }) rfl rfl
  rw [← hbody]
  cases i <;> rfl

/-- A command writes STATUS, so that after it nothing differs. -/
theorem exec_sameButStatus {i : Instr} {s s' t : State} (h : sameButStatus s s') (ht : exec i s = .next t) :
    ∃ t', exec i s' = .next t' ∧ sameMachine t t' := by
  have hbody := bodyOf_sameButStatus i h
  obtain ⟨⟨status, hregs⟩, hbuf, hmagic⟩ := h
  have hwin : s'.windowValid ↔ s.windowValid := by
    simp only [State.windowValid, State.cursor, State.bound, State.bufLen, hregs, hbuf]
  have hraise (e : Err) : sameMachine (raiseOutcome e s) (raiseOutcome e s') :=
    ⟨by rw [raiseOutcome_regs, hregs, raiseOutcome_regs], hbuf, hmagic⟩
  rw [exec_eq_runCommand] at ht ⊢
  obtain ⟨hw, rfl⟩ | ⟨hw, q, hq, rfl⟩ | ⟨hw, e, he, rfl⟩ := runCommand_next ht
  · exact ⟨_, runCommand_badWindow (mt hwin.mp hw), hraise .badWindow⟩
  · rw [hq, Res.bind_ok] at hbody
    refine ⟨_, runCommand_ok (hwin.mpr hw) hbody, ?_, hbuf, hmagic⟩
    rw [bodyOf_ok_overlay hq, hregs]
    cases i <;> rfl
  · rw [he, Res.bind_raise] at hbody
    exact ⟨_, runCommand_raise (hwin.mpr hw) hbody, hraise e⟩

/-- What the one operation answers the other answers too, and it leaves the same machine. -/
def alike {α : Type} (o o' : Host.Outcome (α × State) Fault Refusal) : Prop :=
  ∀ a t, o = .next (a, t) → ∃ t', o' = .next (a, t') ∧ sameMachine t t'

theorem alike_next {α : Type} {a : α} {t t' : State} (h : sameMachine t t') :
    alike (.next (a, t)) (.next (a, t')) := by
  rintro _ _ ⟨⟩
  exact ⟨t', rfl, h⟩

theorem alike_andThen {α β : Type} {o o' : Host.Outcome (α × State) Fault Refusal}
    {k : α × State → Host.Outcome (β × State) Fault Refusal} (ho : alike o o')
    (hk : ∀ a t t', sameMachine t t' → alike (k (a, t)) (k (a, t'))) : alike (andThen o k) (andThen o' k) := by
  cases o with
  | next x =>
    obtain ⟨t', rfl, ht⟩ := ho x.1 x.2 rfl
    exact hk x.1 x.2 t' ht
  | fault f => exact nofun
  | refused r => exact nofun

theorem hostCommand_of_exec {i : Instr} {s t : State} (h : exec i s = .next t) :
    hostCommand i s = .next (errOfStatus (readReg t .status), (hostGet .status t).2) := by
  simp only [hostCommand, hostTransact_command, h, andThen_next, hostGet_fst]

section alike

variable {s s' : State}

theorem hostCommand_alike (i : Instr) (h : sameButStatus s s') : alike (hostCommand i s) (hostCommand i s') := by
  obtain ⟨t, ht⟩ := exec_completes i s
  obtain ⟨t', ht', hsame⟩ := exec_sameButStatus h ht
  rw [hostCommand_of_exec ht, hostCommand_of_exec ht', hsame.readReg]
  exact alike_next hsame

theorem hostGetAll_alike (rs : List Reg) (h : sameMachine s s') :
    (hostGetAll rs s').1 = (hostGetAll rs s).1 ∧ sameMachine (hostGetAll rs s).2 (hostGetAll rs s').2 := by
  obtain ⟨hvalues, hregs, hbuf, hmagic, -⟩ := hostGetAll_spec rs s
  obtain ⟨hvalues', hregs', hbuf', hmagic', -⟩ := hostGetAll_spec rs s'
  have hread : readReg s' = readReg s := funext h.readReg
  obtain ⟨hregs₀, hbuf₀, hmagic₀⟩ := h
  refine ⟨?_, ?_, ?_, ?_⟩
  · rw [hvalues, hvalues', hread]
  · rw [hregs, hregs', hregs₀]
  · rw [hbuf, hbuf', hbuf₀]
  · rw [hmagic, hmagic', hmagic₀]

theorem decodeFields_alike (fs : List TemplateField) :
    ∀ {s s'}, sameMachine s s' → alike (decodeFields fs s) (decodeFields fs s') := by
  induction fs with
  | nil => exact fun h => alike_next h
  | cons f fs ih =>
    intro s s' h
    refine alike_andThen (hostCommand_alike _ h.sameButStatus) fun err t t' ht => ?_
    cases err with
    | some e => exact alike_next ht
    | none =>
      obtain ⟨hwords, hafter⟩ := hostGetAll_alike (resultRegs f.wire) ht
      dsimp only
      rw [hwords]
      exact alike_andThen (ih hafter) fun r u u' hu => alike_next hu

theorem atTrailer_sameMachine (h : sameMachine s s') : sameMachine (atTrailer s) (atTrailer s') := by
  obtain ⟨hregs, hbuf, hmagic⟩ := h
  exact ⟨by rw [atTrailer, atTrailer, writeLim_regs, writeLim_regs, hostGet_regs, hostGet_regs, hregs], hbuf, hmagic⟩

theorem decodePayload_alike (id : Byte) (h : sameMachine s s') : alike (decodePayload id s) (decodePayload id s') := by
  have hpayOff := h.readReg .payOff
  obtain ⟨hregs, hbuf, hmagic⟩ := h
  simp only [decodePayload, hostGet_fst, hostGet_buf, hpayOff, hbuf]
  cases readIdAndMap s.buf (readReg s .payOff).toNat with
  | fault f => exact nofun
  | raise e => exact alike_next ⟨hregs, hbuf, hmagic⟩
  | ok idAndMap =>
    obtain ⟨tid, map⟩ := idAndMap
    cases htemplate : templateFor id tid with
    | none =>
      simp only [htemplate]
      exact alike_next ⟨hregs, hbuf, hmagic⟩
    | some template =>
      simp only [htemplate]
      have hwritten (v : Word) : sameMachine (writeOff v (hostGet .payOff s).2) (writeOff v (hostGet .payOff s').2) :=
        ⟨by rw [writeOff_regs, writeOff_regs, hostGet_regs, hostGet_regs, hregs], hbuf, hmagic⟩
      refine alike_andThen (decodeFields_alike _ (hwritten _)) fun r u u' hu => ?_
      cases r <;> exact alike_next hu

theorem verifyFrame_alike (id : Byte) (h : sameMachine s s') : alike (verifyFrame id s) (verifyFrame id s') := by
  refine alike_andThen (hostCommand_alike .crcv (atTrailer_sameMachine h).sameButStatus) fun err t t' ht => ?_
  cases err with
  | some e => exact alike_next ht
  | none => exact decodePayload_alike id ht

/-- The same but for STATUS and the window, all that an attempt without a marker changes. -/
def sameButWindow (s s' : State) : Prop :=
  (∃ off lim status, s'.regs = { s.regs with off := off, lim := lim, status := status }) ∧ s'.buf = s.buf ∧
    s'.magic = s.magic

theorem sameButWindow.trans {s'' : State} (h : sameButWindow s s') (h' : sameButWindow s' s'') : sameButWindow s s'' := by
  obtain ⟨⟨_, _, _, hregs⟩, hbuf, hmagic⟩ := h
  obtain ⟨⟨off, lim, status, hregs'⟩, hbuf', hmagic'⟩ := h'
  exact ⟨⟨off, lim, status, by rw [hregs', hregs]⟩, hbuf'.trans hbuf, hmagic'.trans hmagic⟩

theorem atCandidate_sameButStatus (c : Word) (h : sameButWindow s s') :
    sameButStatus (atCandidate c s) (atCandidate c s') := by
  obtain ⟨⟨off, lim, status, hregs⟩, hbuf, hmagic⟩ := h
  refine ⟨⟨status, ?_⟩, hbuf, hmagic⟩
  simp only [atCandidate, writeLim_regs, hostGet_regs, writeOff_regs, hregs, hbuf]

theorem attempt_alike (id : Byte) (c : Word) (h : sameButWindow s s') : alike (attempt id c s) (attempt id c s') := by
  have hcandidate := atCandidate_sameButStatus c h
  refine alike_andThen (hostCommand_alike .hdr hcandidate) fun err t t' ht => ?_
  cases err with
  | some e => cases e <;> exact alike_next ht
  | none => exact verifyFrame_alike id ht

end alike

/-! ### Where a marker stands -/

/-- What comes of a frame at `f` whose marker stands: a verdict, and if it is good H_LEN is its length. -/
def judged (buf : Buffer) (f : Nat) : Verdict → State → Prop
  | .noMarker, _ => False
  | .rejected _, _ => True
  | .accepted _, u => u.regs.hLen.toNat = lengthAt buf f ∧ 32 ≤ lengthAt buf f ∧ f + lengthAt buf f ≤ buf.len.toNat

theorem exists_verdictOf_of_judged {buf : Buffer} {f : Nat} {v : Verdict} {u : State} (h : judged buf f v u) :
    ∃ r, v = verdictOf r := by
  cases v with
  | noMarker => exact h.elim
  | rejected e => exact ⟨.error e, rfl⟩
  | accepted fields => exact ⟨.ok fields, rfl⟩

theorem decodePayload_judged {s : State} {f : Nat} (id : Byte) (h : ParsedAt s f) :
    comesTo (decodePayload id s) (judged s.buf f) := by
  by_cases hid : s.buf.byteAt (f + 28) = id
  · obtain ⟨r, t, -, hlen, hrun⟩ := decodePayload_of_ownId h hid
    refine ⟨_, t, hrun, ?_⟩
    cases r with
    | error e => trivial
    | ok fields => exact ⟨hlen ▸ h.hLen, h.minLength, h.inBuffer⟩
  · obtain ⟨t, hrun⟩ := decodePayload_of_foreignId h hid
    exact ⟨_, t, hrun, trivial⟩

theorem verifyFrame_judged {s : State} {f : Nat} (id : Byte) (h : ParsedAt s f) :
    comesTo (verifyFrame id s) (judged s.buf f) := by
  by_cases heq : trailerAgrees s.buf f
  · obtain ⟨t, hbuf, hparsed, -, hrun⟩ := verifyFrame_of_trailerAgrees h id heq
    rw [hrun, ← hbuf]
    exact decodePayload_judged id hparsed
  · obtain ⟨t, hrun⟩ := verifyFrame_of_corrupt h id heq
    exact ⟨_, t, hrun, trivial⟩

section candidate

variable {c : Word} {s : State}

theorem attempt_of_marker (id : Byte) (hroom : c.toNat + 28 ≤ s.buf.len.toNat)
    (htag : leSum s.buf c.toNat 4 = s.magic.toNat) : comesTo (attempt id c s) (judged s.buf c.toNat) := by
  have h28 : 28 ≤ s.buf.len.toNat - c.toNat := Nat.le_sub_of_add_le' hroom
  obtain ⟨-, hhdr⟩ := hdrOutcomeAndResult (atCandidate c s)
  obtain ⟨-, -, hlength, hover, -⟩ := hhdr ⟨(Nat.le_add_right _ _).trans hroom, le_rfl⟩
  by_cases hmin : lengthAt s.buf c.toNat < 32
  · exact ⟨_, _, attempt_of_raise (e := .badLength) (by decide) (hlength h28 htag hmin), trivial⟩
  have hmin := Nat.le_of_not_lt hmin
  by_cases hfit : s.buf.len.toNat - c.toNat < lengthAt s.buf c.toNat
  · exact ⟨_, _, attempt_of_raise (e := .truncated) (by decide) (hover h28 htag hmin hfit), trivial⟩
  · obtain ⟨t, hbuf, hparsed, hrun⟩ := attempt_of_frame id h28 htag hmin (Nat.le_of_not_lt hfit)
    rw [hrun, ← hbuf]
    exact verifyFrame_judged id hparsed

/-- Where no marker stands the attempt only moves the window and leaves NOT_A_FRAME. -/
theorem attempt_of_noMarker (id : Byte) (hroom : c.toNat + 28 ≤ s.buf.len.toNat)
    (hne : leSum s.buf c.toNat 4 ≠ s.magic.toNat) :
    comesTo (attempt id c s) fun v t => v = .noMarker ∧ sameButWindow s t := by
  obtain ⟨-, hhdr⟩ := hdrOutcomeAndResult (atCandidate c s)
  obtain ⟨-, hmarker, -⟩ := hhdr ⟨(Nat.le_add_right _ _).trans hroom, le_rfl⟩
  exact ⟨_, _, attempt_of_notAFrame (hmarker (Nat.le_sub_of_add_le' hroom) hne), rfl, ⟨_, _, _, rfl⟩, rfl, rfl⟩

theorem markerAt_iff (hroom : c.toNat + 28 ≤ s.buf.len.toNat) :
    markerAt s c.toNat = true ↔ leSum s.buf c.toNat 4 = s.magic.toNat := by
  rw [markerAt, decide_eq_true_eq, memRead_eq_leSum 4 _ (by omega), Res.ok.injEq]

/-! ### The search -/

/-- The search goes on over an offset where no marker stands, whichever way it looks. -/
theorem seek_of_noMarker (how : SearchBy) (id : Byte) (n : Nat) (hroom : c.toNat + 28 ≤ s.buf.len.toNat)
    (hne : leSum s.buf c.toNat 4 ≠ s.magic.toNat) :
    ∃ t, sameButWindow s t ∧ seek how id (n + 1) c s = seek how id n (c + 1#32) t := by
  have hmarker : markerAt s c.toNat = false := Bool.eq_false_iff.mpr (mt (markerAt_iff hroom).mp hne)
  cases how with
  | host => exact ⟨s, ⟨⟨_, _, _, rfl⟩, rfl, rfl⟩, if_pos ⟨rfl, hmarker⟩⟩
  | hdr =>
    obtain ⟨v, t, hrun, rfl, hsame⟩ := attempt_of_noMarker id hroom hne
    exact ⟨t, hsame, (if_neg (by simp)).trans (andThen_of_next hrun)⟩

/-- The search ends at an offset where a marker stands, whichever way it looks. -/
theorem seek_of_marker (how : SearchBy) {id : Byte} (n : Nat) (hroom : c.toNat + 28 ≤ s.buf.len.toNat)
    (htag : leSum s.buf c.toNat 4 = s.magic.toNat) {r : Except Err (List DecodedField)} {t : State}
    (hrun : attempt id c s = .next (verdictOf r, t)) : seek how id (n + 1) c s = .next (some (c, r), t) := by
  have hmarker : ¬ (how = .host ∧ markerAt s c.toNat = false) := by simp [(markerAt_iff hroom).mpr htag]
  refine (if_neg hmarker).trans ((andThen_of_next hrun).trans ?_)
  cases r <;> rfl

end candidate

/-- Past an offset where no marker stands the first marker is the same. -/
theorem firstMarker_succ_iff {s : State} {c e a : Nat} (hne : leSum s.buf c 4 ≠ s.magic.toNat) :
    firstMarker s (c + 1) e a ↔ firstMarker s c e a := by
  constructor
  · rintro ⟨hle, hend, htag, hfirst⟩
    refine ⟨(Nat.le_succ c).trans hle, hend, htag, fun b hb hlt => ?_⟩
    obtain rfl | hb := Nat.eq_or_lt_of_le hb
    · exact hne
    · exact hfirst b hb hlt
  · rintro ⟨hle, hend, htag, hfirst⟩
    obtain rfl | hle := Nat.eq_or_lt_of_le hle
    · exact absurd htag hne
    · exact ⟨hle, hend, htag, fun b hb hlt => hfirst b (Nat.le_of_succ_le hb) hlt⟩

/-- The search from `c` answers that no marker stands before `e`, or the first one and what an attempt there from `s` comes
to. -/
def findsFirst (id : Byte) (s : State) (c e : Nat)
    (o : Host.Outcome (Option (Word × Except Err (List DecodedField)) × State) Fault Refusal) : Prop :=
  ((∀ a, ¬ firstMarker s c e a) ∧ ∃ t, o = .next (none, t)) ∨
    ∃ a r u t, firstMarker s c e a.toNat ∧ attempt id a s = .next (verdictOf r, u) ∧
      judged s.buf a.toNat (verdictOf r) u ∧ sameMachine u t ∧ o = .next (some (a, r), t)

/-- The search finds the first marker of the candidates that are left, from any state that earlier attempts have left. -/
theorem seek_findsFirst (how : SearchBy) (id : Byte) {s : State} {e : Word} (he : e.toNat ≤ s.buf.len.toNat) (n : Nat) :
    ∀ c s', candidates c e = n → sameButWindow s s' → findsFirst id s c.toNat e.toNat (seek how id n c s') := by
  induction n with
  | zero =>
    intro c s' hn _
    rw [candidates, Config.headerSize] at hn
    exact .inl ⟨fun a ⟨hle, hend, _⟩ => by omega, s', rfl⟩
  | succ n ih =>
    intro c s' hn hsame
    have ⟨_, hbuf, hmagic⟩ := hsame
    rw [candidates, Config.headerSize] at hn
    have hend : c.toNat + 28 ≤ e.toNat := by omega
    have hroom := hend.trans he
    by_cases htag : leSum s.buf c.toNat 4 = s.magic.toNat
    · obtain ⟨v, u, hrun, hjudged⟩ := attempt_of_marker id hroom htag
      obtain ⟨r, rfl⟩ := exists_verdictOf_of_judged hjudged
      obtain ⟨t, hrun', ht⟩ := attempt_alike id c hsame _ _ hrun
      have hfirst : firstMarker s c.toNat e.toNat c.toNat :=
        ⟨le_rfl, hend, htag, fun b hb hlt => absurd hb (Nat.not_le.mpr hlt)⟩
      rw [← hbuf] at hroom htag
      rw [← hmagic] at htag
      exact .inr ⟨c, r, u, t, hfirst, hrun, hjudged, ht, seek_of_marker how n hroom htag hrun'⟩
    · have hnext : (c + 1#32).toNat = c.toNat + 1 := by
        refine BitVec.toNat_add_of_lt (lt_of_le_of_lt ?_ e.isLt)
        rw [BitVec.toNat_one (by decide)]
        omega
      obtain ⟨t, ht, hseek⟩ := seek_of_noMarker how id n (hbuf ▸ hroom) (hbuf.symm ▸ hmagic.symm ▸ htag)
      have hrest := ih (c + 1#32) t (by rw [candidates, hnext, Config.headerSize]; omega) (hsame.trans ht)
      simp only [findsFirst, hnext, firstMarker_succ_iff htag] at hrest
      rw [hseek]
      exact hrest

theorem seek_comesTo (how : SearchBy) (id : Byte) (n : Nat) :
    ∀ c s, comesTo (seek how id n c s) fun _ t => hostKeeps s t := by
  induction n with
  | zero => exact fun c s => comesTo_next ⟨rfl, rfl, rfl⟩
  | succ n ih =>
    intro c s
    unfold seek
    split
    · exact ih _ _
    · refine comesTo_andThen (attempt_comesTo id c s) fun v t hkept => ?_
      cases v with
      | noMarker =>
        obtain ⟨found, u, hrun, hkept'⟩ := ih (c + 1#32) t
        exact ⟨found, u, hrun, hkept.trans hkept'⟩
      | rejected e => exact comesTo_next hkept
      | accepted fields => exact comesTo_next hkept

end Sys2Proof.Machine
end

section
/-! PROOFS. The system around the block (50_system_context.md): one iteration of a worker's loop R268, R259. -/

namespace Sys2Proof.Safety

open Sys2Proof.Machine

/-- Settles O50: the search keeps buffer, MAGIC and queue, and only a read of H_LEN follows it. -/
theorem workerIterationCompletes : Obligations.WorkerIterationCompletes := by
  intro how id policy c e s
  refine comesTo_andThen (seek_comesTo how id (candidates c e) c s) fun found t hkept => ?_
  obtain _ | ⟨a, r⟩ := found
  · exact comesTo_next hkept
  · cases r <;> exact comesTo_next hkept

/-- Settles O51: the search finds the first marker, and an accepted frame's H_LEN is its length. -/
theorem workerIterationTriesTheFirstMarker : Obligations.WorkerIterationTriesTheFirstMarker := by
  intro how id policy c e s he
  have hfinds := seek_findsFirst how id he (candidates c e) c s rfl ⟨⟨_, _, _, rfl⟩, rfl, rfl⟩
  obtain ⟨hnone, t, hseek⟩ | ⟨a, r, u, t, hfirst, hrun, hjudged, ht, hseek⟩ := hfinds
  · exact .inl ⟨hnone, t, andThen_of_next hseek⟩
  refine .inr ⟨a, u, hfirst, ?_⟩
  cases r with
  | error err =>
    refine .inl ⟨err, t, hrun, ht.1, ?_⟩
    rw [← ht.1]
    exact andThen_of_next hseek
  | ok fields =>
    obtain ⟨hlen, hmin, hfit⟩ := hjudged
    have hend : (a + readReg t .hLen).toNat = a.toNat + lengthAt s.buf a.toNat := by
      rw [ht.readReg, ← hlen]
      exact BitVec.toNat_add_of_lt (hlen ▸ hfit.trans_lt s.buf.len.isLt)
    refine .inr ⟨fields, a + readReg t .hLen, (hostGet .hLen t).2, hrun, ht.1, andThen_of_next hseek, hend, ?_, ?_⟩
    · exact hend ▸ Nat.add_le_add_left hmin _
    · exact hend ▸ hfit

end Sys2Proof.Safety
end

section
/-! SUPPORT. Outcomes (60_exceptions.md): the code every answer of a command leaves in STATUS, and for each entry of the table
R282 a state on which the command ends with it. -/

namespace Sys2Proof.Machine

open Sys2Proof.Safety

/-! ### From the answer to the table -/

/-- STATUS tells the codes apart (10_state.md R23). -/
theorem statusWord_injective : Function.Injective statusWord :=
  Function.LeftInverse.injective setWidth_statusWord

/-- Every answer of a command leaves a code of the command's column in STATUS (60_exceptions.md R282). -/
theorem exec_status {i : Instr} {s t : State} (h : exec i s = .next t) :
    ∃ c ∈ outcomesOf i, t.regs.status = statusWord c := by
  obtain ⟨e, he, rfl⟩ | ⟨-, q, -, rfl⟩ := exec_next h
  · exact ⟨e.code, he, rfl⟩
  · exact ⟨okCode, by cases i <;> decide, rfl⟩

/-- A command word that ended with an error outcome, legal or not. -/
theorem issueCommand_next_of_error {w : Word} {s t : State} (h : issueCommand w s = .next t) (hst : t.regs.status ≠ 0#32) :
    ∃ e : Err, t = raiseOutcome e s := by
  obtain ⟨e, -, ht⟩ | ⟨i, q, -, rfl⟩ := issueCommand_next h
  · exact ⟨e, ht⟩
  · exact absurd rfl hst

/-! ### From the table to an answer -/

/-- Does the command, run on this state, end with this code? -/
def endsWith (i : Instr) (c : Byte) (s : State) : Bool :=
  match exec i s with
  | .next t => t.regs.status == statusWord c
  | _ => false

theorem next_of_endsWith {i : Instr} {c : Byte} {s : State} (h : endsWith i c s = true) :
    ∃ t, exec i s = .next t ∧ t.regs.status = statusWord c := by
  unfold endsWith at h
  split at h
  · next t ht => exact ⟨t, ht, eq_of_beq h⟩
  · cases h

/-- The window [0, lim) on a buffer of these bytes, with MAGIC 0: at reset MAGIC has no value to compute with (log entry 4). -/
def windowTo (lim : Word) (bytes : List Byte) : State :=
  { State.reset with buf := Buffer.ofBytes bytes, magic := 0#32, regs := { Regs.reset with lim := lim } }

/-- For each code of the command's column a state on which it ends with that code. The bound 1 on the empty buffer is an ill
formed window; five bytes 0x80 are a stop-bit integer that is too long; 32 zero bytes with length 32 are the least frame. -/
def outcomeSamples : Instr → List (Byte × State)
  | .crc32 => [(0x00#8, windowTo 0 []), (0x12#8, windowTo 1 [])]
  | .crcv => [(0x00#8, windowTo 0 [0, 0, 0, 0]), (0x03#8, windowTo 0 [1, 0, 0, 0]), (0x12#8, windowTo 1 [])]
  | .vu32 => [(0x00#8, windowTo 1 [0]), (0x05#8, windowTo 0 []), (0x10#8, windowTo 5 (List.replicate 5 0x80)),
      (0x12#8, windowTo 1 [])]
  | .vu64 => [(0x00#8, windowTo 2 [0, 0]), (0x05#8, windowTo 0 []), (0x10#8, windowTo 5 (List.replicate 5 0x80)),
      (0x12#8, windowTo 1 [])]
  | .str => [(0x00#8, windowTo 1 [0]), (0x05#8, windowTo 0 []), (0x12#8, windowTo 1 [])]
  | .dec => [(0x00#8, windowTo 2 [0, 0]), (0x05#8, windowTo 0 []), (0x10#8, windowTo 5 (List.replicate 5 0x80)),
      (0x12#8, windowTo 1 [])]
  | .hdr => [(0x00#8, windowTo 32 ((List.replicate 32 0).set 8 32)), (0x01#8, windowTo 28 (List.replicate 28 1)),
      (0x02#8, windowTo 0 []), (0x11#8, windowTo 28 (List.replicate 28 0)), (0x12#8, windowTo 1 [])]

/-- The samples cover the command's column. -/
theorem outcomeSamples_codes (i : Instr) : (outcomeSamples i).map Prod.fst = outcomesOf i := by cases i <;> rfl

/-- The machine, run on each sample, ends with the sample's code. -/
theorem outcomeSamples_endsWith (i : Instr) : ∀ p ∈ outcomeSamples i, endsWith i p.1 p.2 = true := by
  cases i <;> decide +kernel

/-- Each code of the table is some run's outcome (60_exceptions.md R282). -/
theorem exists_exec_status {i : Instr} {c : Byte} (hc : c ∈ outcomesOf i) :
    ∃ s t : State, exec i s = .next t ∧ t.regs.status = statusWord c := by
  rw [← outcomeSamples_codes i] at hc
  obtain ⟨⟨_, s⟩, hp, rfl⟩ := List.mem_map.mp hc
  exact ⟨s, next_of_endsWith (outcomeSamples_endsWith i _ hp)⟩

end Sys2Proof.Machine
end

section
/-! PROOFS. Outcomes (60_exceptions.md): the table R282 and the effect of an error outcome R285. -/

namespace Sys2Proof.Safety

open Sys2Proof.Machine

/-- Settles O14: an answer with STATUS other than 0 is `raiseOutcome`'s, for a word as for a command. -/
theorem anErrorChangesStatusOnly : Obligations.AnErrorChangesStatusOnly := by
  refine ⟨fun w s t h hst => issueCommand_next_of_error h hst, fun i s t h hst => ?_⟩
  obtain ⟨e, -, ht⟩ := exec_next_of_error h hst
  exact ⟨e, ht⟩

/-- Settles O16: the samples reach every entry of the table, and no answer leaves a code outside it. -/
theorem outcomesOfEachCommand : Obligations.OutcomesOfEachCommand := by
  refine ⟨fun i c => ⟨exists_exec_status, fun ⟨s, t, h, hst⟩ => ?_⟩, fun i s t h => ?_,
    fun w s hw => issueCommand_illegal hw s⟩
  · obtain ⟨c', hc', hst'⟩ := exec_status h
    exact statusWord_injective (hst.symm.trans hst') ▸ hc'
  · obtain ⟨c, -, hst⟩ := exec_status h
    rw [hst, statusWord_ushiftRight]

end Sys2Proof.Safety
end

section
/-! SUPPORT. Reset and hazards (70_reset_and_hazards.md): an error outcome as a change of STATUS alone. -/

namespace Sys2Proof.Machine

/-- An error outcome changes nothing but STATUS, which no command reads (10_state.md R36). -/
theorem sameButStatus_raiseOutcome (e : Err) (s : State) : sameButStatus s (raiseOutcome e s) :=
  ⟨⟨statusWord e.code, rfl⟩, rfl, rfl⟩

/-- An error outcome that leaves the registers as they were leaves the state as it was. -/
theorem raiseOutcome_eq_self {e : Err} {s : State} (h : (raiseOutcome e s).regs = s.regs) : raiseOutcome e s = s :=
  congrArg (fun r => { s with regs := r }) h

end Sys2Proof.Machine
end

section
/-! PROOFS. Reset and hazards (70_reset_and_hazards.md): a repeated error R317 and the quiescent block R321. -/

namespace Sys2Proof.Safety

open Sys2Proof.Machine

/-- Settles O15: the error state differs from the state before it in STATUS alone, so the command leaves the same registers
again; its outcome is again an error, which writes no more than registers. -/
theorem anErrorRepeats : Obligations.AnErrorRepeats := by
  intro i s t h hst
  obtain ⟨e, -, rfl⟩ := exec_next_of_error h hst
  obtain ⟨u, hu, hregs, -, -⟩ := exec_sameButStatus (sameButStatus_raiseOutcome e s) h
  have hust : u.regs.status ≠ 0#32 := by rwa [hregs]
  obtain ⟨e', -, rfl⟩ := exec_next_of_error hu hust
  rw [hu, raiseOutcome_eq_self hregs]

/-- Settles O7: with nothing pending there is no event that a step could perform. -/
theorem nothingPendingNothingHappens : Obligations.NothingPendingNothingHappens := by
  intro s hpending
  rw [step, hpending]

end Sys2Proof.Safety
end
